-- ==== Sys2Proof/Word.lean ====
section
/-! DEFINITION. The machine word and its plainest arithmetic (spec/00_scope.md R6, R9, R10). -/

namespace Sys2Proof

/-- The 16-bit word, "the machine's 16-bit unit of storage and addressing granularity" (R6, R14). -/
abbrev Word := BitVec 16

/-- `trunc16(v) = v mod 0x10000`, the mathematical modulus (R10). -/
def trunc16 (v : Int) : Word := BitVec.ofInt 16 v

/-- `signed16(w)`: the word read as two's complement (R10). -/
def signed16 (w : Word) : Int :=
  if w.getLsbD 15 then (w.toNat : Int) - 0x10000 else (w.toNat : Int)

end Sys2Proof
end

