-- ==== Sys2Proof/Config.lean ====
section
/-! DEFINITION. The configuration of the CORE: what is fixed for a machine and is not state
(spec/00_scope.md R7; spec/10_state.md R16 "configuration, not state"). -/

namespace Sys2Proof

/-- `CHAR_BITS`, the width of a console character code: 8 (R7, D15; log entry 9). -/
abbrev Config.charBits : Nat := 8

/-- A console character code, 0 .. 2^CHAR_BITS - 1 (R26, R27). -/
abbrev CharCode := BitVec Config.charBits

/-- `HALT_WORD`, the designated halt encoding: 0xF025 (R7, D7; log entry 7). -/
def Config.haltWord : Word := 0xF025#16

/-- `STRICT_DECODE`: whether a word whose unused bits differ from the pattern is Illegal: true
(R7, R57, D12; log entry 8). -/
def Config.strictDecode : Bool := true

/-- The value of the mode bit M in which RTI may run: 0 (R25, D10; kept as a named constant as I8
asks; log entry 12). -/
def Config.rtiPermittedMode : Bool := false

/-- `BASE_COST : Opcode4 -> Nat`, OPEN in the spec (R7, R31, D8). A free value: it has no body, so no
proof can lean on a number the spec does not give (log entry 10). -/
opaque Config.baseCost : BitVec 4 → Nat

/-- `CHAR_TEXT : code -> character`, OPEN in the spec and owned by the host (R27, D40). A free value:
nothing in the CORE reads it (log entry 25). -/
opaque Config.charText : CharCode → Char

end Sys2Proof
end

