-- ==== Sys2Proof/Syntax.lean ====
section
/-! DEFINITION. The instructions: one constructor per row of spec/opcode_table.json (20 rows), with
the operand fields of spec/30_encoding.md R51 and R52. -/

namespace Sys2Proof

/-- The eight general registers R0 to R7 (spec/10_state.md R17). -/
inductive Reg where
  | r0 | r1 | r2 | r3 | r4 | r5 | r6 | r7
  deriving DecidableEq, Repr

/-- The instructions of the opcode table, in the table's order. -/
inductive Instr where
  /-- BR: selector bits n, z, p and PCoffset9 (R80). -/
  | br (n z p : Bool) (off : BitVec 9)
  /-- ADD, register form (R76). -/
  | addReg (dr sr1 sr2 : Reg)
  /-- ADD, immediate form (R76). -/
  | addImm (dr sr1 : Reg) (imm : BitVec 5)
  /-- LD (R86). -/
  | ld (dr : Reg) (off : BitVec 9)
  /-- ST (R88). -/
  | st (sr : Reg) (off : BitVec 9)
  /-- JSR (R82). -/
  | jsr (off : BitVec 11)
  /-- JSRR (R83). -/
  | jsrr (base : Reg)
  /-- AND, register form (R77). -/
  | andReg (dr sr1 sr2 : Reg)
  /-- AND, immediate form (R77). -/
  | andImm (dr sr1 : Reg) (imm : BitVec 5)
  /-- LDR (R90). -/
  | ldr (dr base : Reg) (off : BitVec 6)
  /-- STR (R91). -/
  | str (sr base : Reg) (off : BitVec 6)
  /-- RTI (R84). -/
  | rti
  /-- NOT (R78). -/
  | not (dr sr : Reg)
  /-- LDI (R87). -/
  | ldi (dr : Reg) (off : BitVec 9)
  /-- STI (R89). -/
  | sti (sr : Reg) (off : BitVec 9)
  /-- JMP; RET is JMP R7 (R81). -/
  | jmp (base : Reg)
  /-- The table's RESERVED row, opcode 1101: the twelve other bits are kept because the fault records
  the whole word (R56, R99). -/
  | reserved (low : BitVec 12)
  /-- LEA (R92). -/
  | lea (dr : Reg) (off : BitVec 9)
  /-- TRAP (R93). -/
  | trap (vect : BitVec 8)
  /-- The table's HALT row: the halt word, a stop pattern of the run loop tested before decode, not an
  instruction the engine executes (R58, R63). -/
  | halt
  deriving DecidableEq, Repr

end Sys2Proof
end

