-- ==== Sys2Proof/WellFormed.lean ====
section
/-! DEFINITION. Which terms of Instr stand for a word that reaches them. Every operand is bounded by
its type; the one further check is that a TRAP is not spelled as the halt word, which "is never
dispatched to TRAP" (spec/40_cycle.md R63, spec/30_encoding.md R58). -/

namespace Sys2Proof

/-- The word a TRAP of this vector has (spec/30_encoding.md R52): the format `1111 0000 vvvvvvvv`. -/
def trapWord (vect : BitVec 8) : Word := 0b11110000#8 ++ vect

/-- Well-formedness of an instruction, as a test. -/
def Instr.wellFormed : Instr → Bool
  | .br _ _ _ _ => true
  | .addReg _ _ _ => true
  | .addImm _ _ _ => true
  | .ld _ _ => true
  | .st _ _ => true
  | .jsr _ => true
  | .jsrr _ => true
  | .andReg _ _ _ => true
  | .andImm _ _ _ => true
  | .ldr _ _ _ => true
  | .str _ _ _ => true
  | .rti => true
  | .not _ _ => true
  | .ldi _ _ => true
  | .sti _ _ => true
  | .jmp _ => true
  | .reserved _ => true
  | .lea _ _ => true
  | .trap vect => trapWord vect != Config.haltWord
  | .halt => true

end Sys2Proof
end

