-- ==== Sys2Proof/Decode.lean ====
section
/-! DEFINITION. Decoding one 16-bit word, and the encoder beside it, both written from the format
table of spec/30_encoding.md (R49 to R58). The layout is the published LC-3's, as the spec takes it
(D6; log entry 6). -/

namespace Sys2Proof

/-! ## Register fields -/

/-- The 3-bit number of a register (R51). -/
def Reg.bits : Reg → BitVec 3
  | .r0 => 0 | .r1 => 1 | .r2 => 2 | .r3 => 3
  | .r4 => 4 | .r5 => 5 | .r6 => 6 | .r7 => 7

/-- The register a 3-bit field names: "a register field selects x[field]" (R54). -/
def Reg.ofBits (b : BitVec 3) : Reg :=
  match b.toNat with
  | 0 => .r0 | 1 => .r1 | 2 => .r2 | 3 => .r3
  | 4 => .r4 | 5 => .r5 | 6 => .r6 | _ => .r7

/-! ## Fields of an instruction word (R50, R51) -/

/-- The opcode `w[15:12]` (R50). -/
def opcodeField (w : Word) : BitVec 4 := w.extractLsb' 12 4
/-- The register field `w[11:9]`: DR, or SR of a store (R51). -/
def regField11 (w : Word) : Reg := Reg.ofBits (w.extractLsb' 9 3)
/-- The register field `w[8:6]`: SR1, SR of NOT, or BaseR (R51). -/
def regField8 (w : Word) : Reg := Reg.ofBits (w.extractLsb' 6 3)
/-- The register field `w[2:0]`: SR2 (R51). -/
def regField2 (w : Word) : Reg := Reg.ofBits (w.extractLsb' 0 3)
/-- imm5, `w[4:0]` (R51). -/
def imm5Field (w : Word) : BitVec 5 := w.extractLsb' 0 5
/-- offset6, `w[5:0]` (R51). -/
def offset6Field (w : Word) : BitVec 6 := w.extractLsb' 0 6
/-- PCoffset9, `w[8:0]` (R51). -/
def offset9Field (w : Word) : BitVec 9 := w.extractLsb' 0 9
/-- PCoffset11, `w[10:0]` (R51). -/
def offset11Field (w : Word) : BitVec 11 := w.extractLsb' 0 11
/-- trapvect8, `w[7:0]` (R51). -/
def trapvect8Field (w : Word) : BitVec 8 := w.extractLsb' 0 8

/-! ## Decoding -/

/-- Why a word is no instruction. -/
inductive DecodeError where
  /-- The word's unused bits differ from the pattern and STRICT_DECODE is true: `Illegal` (R57). -/
  | unusedBits (w : Word)
  deriving DecidableEq, Repr

/-- R57's rule for unused bits: under `strict`, a word whose unused bits are not as the format fixes
them is Illegal; otherwise they are ignored. -/
def checkUnused (strict asFixed : Bool) (w : Word) (i : Instr) : Except DecodeError Instr :=
  if strict && !asFixed then .error (.unusedBits w) else .ok i

/-- R55's `decode(w)`, with STRICT_DECODE an argument. Total: each of the sixteen opcode values has
its arm, and opcode 1101 is the reserved row. -/
def decodeFields (strict : Bool) (w : Word) : Except DecodeError Instr :=
  match (opcodeField w).toNat with
  | 0b0000 => .ok (.br (w.getLsbD 11) (w.getLsbD 10) (w.getLsbD 9) (offset9Field w))
  | 0b0001 =>
    if w.getLsbD 5 then .ok (.addImm (regField11 w) (regField8 w) (imm5Field w))
    else checkUnused strict (w.extractLsb' 3 2 == 0) w
      (.addReg (regField11 w) (regField8 w) (regField2 w))
  | 0b0010 => .ok (.ld (regField11 w) (offset9Field w))
  | 0b0011 => .ok (.st (regField11 w) (offset9Field w))
  | 0b0100 =>
    if w.getLsbD 11 then .ok (.jsr (offset11Field w))
    else checkUnused strict (w.extractLsb' 9 2 == 0 && w.extractLsb' 0 6 == 0) w
      (.jsrr (regField8 w))
  | 0b0101 =>
    if w.getLsbD 5 then .ok (.andImm (regField11 w) (regField8 w) (imm5Field w))
    else checkUnused strict (w.extractLsb' 3 2 == 0) w
      (.andReg (regField11 w) (regField8 w) (regField2 w))
  | 0b0110 => .ok (.ldr (regField11 w) (regField8 w) (offset6Field w))
  | 0b0111 => .ok (.str (regField11 w) (regField8 w) (offset6Field w))
  | 0b1000 => checkUnused strict (w.extractLsb' 0 12 == 0) w .rti
  | 0b1001 => checkUnused strict (w.extractLsb' 0 6 == 0b111111#6) w
      (.not (regField11 w) (regField8 w))
  | 0b1010 => .ok (.ldi (regField11 w) (offset9Field w))
  | 0b1011 => .ok (.sti (regField11 w) (offset9Field w))
  | 0b1100 => checkUnused strict (w.extractLsb' 9 3 == 0 && w.extractLsb' 0 6 == 0) w
      (.jmp (regField8 w))
  | 0b1101 => .ok (.reserved (w.extractLsb' 0 12))
  | 0b1110 => .ok (.lea (regField11 w) (offset9Field w))
  | _ => checkUnused strict (w.extractLsb' 8 4 == 0) w (.trap (trapvect8Field w))

/-- The run loop's halt test: "all 16 bits compared" (R63). -/
def isHaltWord (w : Word) : Bool := w == Config.haltWord

/-- The halt test first, "the comparison happens before decode" (R63), then R55's decode. -/
def decodeUnder (strict : Bool) (w : Word) : Except DecodeError Instr :=
  if isHaltWord w then .ok .halt else decodeFields strict w

/-- What the word at the pc stands for, under the configuration's STRICT_DECODE. -/
def decode (w : Word) : Except DecodeError Instr := decodeUnder Config.strictDecode w

/-! ## Encoding -/

/-- The opcode value of an instruction (R52; the halt word has TRAP's, R58). -/
def Instr.opcode : Instr → BitVec 4
  | .br _ _ _ _ => 0b0000
  | .addReg _ _ _ => 0b0001
  | .addImm _ _ _ => 0b0001
  | .ld _ _ => 0b0010
  | .st _ _ => 0b0011
  | .jsr _ => 0b0100
  | .jsrr _ => 0b0100
  | .andReg _ _ _ => 0b0101
  | .andImm _ _ _ => 0b0101
  | .ldr _ _ _ => 0b0110
  | .str _ _ _ => 0b0111
  | .rti => 0b1000
  | .not _ _ => 0b1001
  | .ldi _ _ => 0b1010
  | .sti _ _ => 0b1011
  | .jmp _ => 0b1100
  | .reserved _ => 0b1101
  | .lea _ _ => 0b1110
  | .trap _ => 0b1111
  | .halt => 0b1111

/-- The word of an instruction, bit 15 on the left, from the format table R52. -/
def encode : Instr → Word
  | .br n z p off => 0b0000#4 ++ BitVec.ofBool n ++ BitVec.ofBool z ++ BitVec.ofBool p ++ off
  | .addReg dr sr1 sr2 => 0b0001#4 ++ dr.bits ++ sr1.bits ++ 0b000#3 ++ sr2.bits
  | .addImm dr sr1 imm => 0b0001#4 ++ dr.bits ++ sr1.bits ++ 0b1#1 ++ imm
  | .ld dr off => 0b0010#4 ++ dr.bits ++ off
  | .st sr off => 0b0011#4 ++ sr.bits ++ off
  | .jsr off => 0b0100#4 ++ 0b1#1 ++ off
  | .jsrr base => 0b0100#4 ++ 0b000#3 ++ base.bits ++ 0b000000#6
  | .andReg dr sr1 sr2 => 0b0101#4 ++ dr.bits ++ sr1.bits ++ 0b000#3 ++ sr2.bits
  | .andImm dr sr1 imm => 0b0101#4 ++ dr.bits ++ sr1.bits ++ 0b1#1 ++ imm
  | .ldr dr base off => 0b0110#4 ++ dr.bits ++ base.bits ++ off
  | .str sr base off => 0b0111#4 ++ sr.bits ++ base.bits ++ off
  | .rti => 0b1000#4 ++ 0b000000000000#12
  | .not dr sr => 0b1001#4 ++ dr.bits ++ sr.bits ++ 0b111111#6
  | .ldi dr off => 0b1010#4 ++ dr.bits ++ off
  | .sti sr off => 0b1011#4 ++ sr.bits ++ off
  | .jmp base => 0b1100#4 ++ 0b000#3 ++ base.bits ++ 0b000000#6
  | .reserved low => 0b1101#4 ++ low
  | .lea dr off => 0b1110#4 ++ dr.bits ++ off
  | .trap vect => trapWord vect
  | .halt => Config.haltWord

/-! ## The opcode table's numbering -/

/-- The word that an opcode-table row numbers `w` stands for: every instruction is one 16-bit word
(R49), so the table's bit numbering is the word's. -/
def tableWord (nbits w : Nat) : Word := BitVec.ofNat 16 (w % 2 ^ nbits)

/-- The instruction the decoder reads from an opcode-table word. -/
def decodeTableWord (nbits w : Nat) : Option Instr :=
  match decode (tableWord nbits w) with
  | .ok i => some i
  | .error _ => none

end Sys2Proof
end

