-- ==== Sys2Proof/Machine/State.lean ====
section
/-! DEFINITION. The machine's state as plain data: one field per row of the list that
spec/10_state.md R16 gives ("the following list and nothing else"), the run states, the fault kinds,
the reasons a step can stop, and the state at power-on. -/

namespace Sys2Proof.Machine

/-- The eight general registers, "each holds one 16-bit word", none hardwired, no banks (R17). -/
structure Regs where
  r0 : Word
  r1 : Word
  r2 : Word
  r3 : Word
  r4 : Word
  r5 : Word
  r6 : Word
  r7 : Word
  deriving DecidableEq, Repr

/-- The Word Memory, 65536 addressable 16-bit words (spec/20_memory.md R36), as a list of
(address, word) cells: addresses strictly rising, no cell equal to what an unlisted address reads as
(`Memory.wf`). The CORE has no bytes (R40), so a cell is the spec's own unit, a word (log entry 5). -/
abbrev Memory := List (Nat × Word)

/-- `bp`, "a set of word addresses" (R28), as a strictly rising list, so that equal sets are equal
data (log entry 22). -/
abbrev Breakpoints := List Word

/-- The fault kinds of spec/60_exceptions.md R99, each with the value the spec says it records. -/
inductive FaultKind where
  /-- Code 1: RTI executed while psr.M = 1 (R84). -/
  | privilegeFault
  /-- Code 2: a trap vector other than 0x20, 0x21, 0x22; records the vector (R98). -/
  | unsupportedTrap (vect : BitVec 8)
  /-- Code 3: a console-input trap with the cursor past the end (R95). -/
  | inputExhausted
  /-- Code 4: an effective address outside 0..0xFFFF; records the out-of-range integer (R38). -/
  | addressOutOfRange (address : Int)
  /-- Code 5: opcode 1101, or unused bits under STRICT_DECODE; records the word (R56, R57). -/
  | illegalInstruction (word : Word)
  deriving DecidableEq, Repr

/-- `runState`, "where the last run stopped" (R30, spec/40_cycle.md R72). -/
inductive RunState where
  /-- Power-on, before the first Run. -/
  | idle
  /-- A Run is in progress. -/
  | running
  /-- The word at pc equals HALT_WORD (R63). -/
  | halted
  /-- pc was in bp before a fetch (R62). -/
  | breakpointed
  /-- A Step raised this fault (R64). -/
  | faulted (kind : FaultKind)
  deriving DecidableEq, Repr

/-- The state of the CORE: R16's rows, one field each. -/
structure State where
  /-- `x[0..7]`, the general registers (R17). -/
  x : Regs
  /-- The program counter, a 16-bit word address (R20). -/
  pc : Word
  /-- The status register, one 16-bit word (R23). -/
  psr : Word
  /-- The word memory (R36). -/
  mem : Memory
  /-- The breakpoint set (R28). -/
  bp : Breakpoints
  /-- `In`, the sequence of character codes (R26). -/
  input : List CharCode
  /-- `In.cursor`, a natural number 0..length(In) (R26). -/
  cursor : Nat
  /-- `Out`, the sequence of character codes, oldest first (R27). -/
  output : List CharCode
  /-- `cost`, the cost accumulator, a natural number with no upper bound (R29). -/
  cost : Nat
  /-- `runState` (R30). -/
  runState : RunState
  deriving DecidableEq, Repr

/-- Why a step answers no next state. The faults the SPEC names are not here: the spec gives each of
them an effect on the state (roll back, then `runState = Faulted(kind)`, R64 and R100), so a step that
raises one answers that next state (log entry 14). -/
inductive Fault where
  /-- Raised by `step` alone, when no run is in progress (`runState` is not Running): R61's loop has
  returned or has not been called, and only a host operation can change the state (R72). A stuck
  state. Safe: the model stops where the CORE executes nothing (log entry 15). -/
  | noRunInProgress
  deriving DecidableEq, Repr

/-- Why the model gives an input no meaning. -/
inductive Refusal where
  /-- An instruction without a meaning, in exec's arm alone; no arm uses it. Safe. -/
  | notModelled (mnemonic : String)
  /-- Raised by a host operation whose argument is out of range: "refused by the model (no
  transition)" (R34, D3, D29, D30). Safe: no state is claimed. -/
  | hostArgumentOutOfRange
  /-- Raised by a host operation called while a run is in progress: "host operations happen only
  between runs" (R35, I14). Safe: no state is claimed. -/
  | hostCallDuringRun
  deriving DecidableEq, Repr

/-- Registers at power-on. The spec leaves their values unspecified (spec/70_reset_and_hazards.md
R113); zero is the model's choice, DESIGN CHOICE, unsafe (log entry 1). -/
def Regs.reset : Regs :=
  { r0 := 0, r1 := 0, r2 := 0, r3 := 0, r4 := 0, r5 := 0, r6 := 0, r7 := 0 }

/-- The state at power-on (R113): bp, In and Out empty, cursor 0, cost 0 and Idle as the spec decides;
x (log entry 1), psr (log entry 2), pc (log entry 3) and the memory's contents (log entry 4) are
unspecified there and zero here, DESIGN CHOICE. -/
def State.reset : State :=
  { x := Regs.reset
    pc := 0
    psr := 0
    mem := []
    bp := []
    input := []
    cursor := 0
    output := []
    cost := 0
    runState := .idle }

end Sys2Proof.Machine
end

