-- ==== Sys2Proof/Machine/Flags.lean ====
section
/-! DEFINITION. The status register's fields (spec/10_state.md R23) and the condition-code unit
(spec/41_operate.md R75). The positions are the LC-3's as the spec takes them (D9; log entry 11). -/

namespace Sys2Proof.Machine

/-- The mode bit M, bit 15 (R23). -/
def psrM (psr : Word) : Bool := psr.getLsbD 15
/-- The negative bit N, bit 2 (R23). -/
def psrN (psr : Word) : Bool := psr.getLsbD 2
/-- The zero bit Z, bit 1 (R23). -/
def psrZ (psr : Word) : Bool := psr.getLsbD 1
/-- The positive bit P, bit 0 (R23). -/
def psrP (psr : Word) : Bool := psr.getLsbD 0

/-- N, Z, P for a result, exactly one of them set: the sign of the 16-bit value (R75). -/
def ccBits (v : Word) : BitVec 3 :=
  if signed16 v < 0 then 0b100#3 else if v = 0 then 0b010#3 else 0b001#3

/-- `setCC(v)`: psr[2:0] from the result's sign, "psr[15:3] unchanged" (R75). -/
def setCC (v psr : Word) : Word := psr.extractLsb' 3 13 ++ ccBits v

/-- R80's test: a selector bit of the instruction meets a set condition-code bit. -/
def branchTaken (n z p : Bool) (psr : Word) : Bool :=
  (n && psrN psr) || (z && psrZ psr) || (p && psrP psr)

/-- RTI's test of the mode bit: it may run when M = 0 (R25; log entry 12). -/
def rtiPermitted (psr : Word) : Bool := psrM psr == Config.rtiPermittedMode

end Sys2Proof.Machine
end

