-- ==== Sys2Proof/Machine/Ops.lean ====
section
/-! DEFINITION. The named operations over registers, memory, the console buffers and the breakpoint
set; the address check; executing one instruction atomically, with its roll back; taking a fault, and
the return from interrupt beside it. -/

namespace Sys2Proof.Machine

/-! ## Registers (spec/10_state.md R17, R18) -/

/-- `x[i]`. -/
def Regs.get (x : Regs) : Reg → Word
  | .r0 => x.r0 | .r1 => x.r1 | .r2 => x.r2 | .r3 => x.r3
  | .r4 => x.r4 | .r5 => x.r5 | .r6 => x.r6 | .r7 => x.r7

/-- `x[i] <- v`: every register is a plain 16-bit word (R17), so a write is a replacement. -/
def Regs.set (x : Regs) (r : Reg) (v : Word) : Regs :=
  match r with
  | .r0 => { x with r0 := v }
  | .r1 => { x with r1 := v }
  | .r2 => { x with r2 := v }
  | .r3 => { x with r3 := v }
  | .r4 => { x with r4 := v }
  | .r5 => { x with r5 := v }
  | .r6 => { x with r6 := v }
  | .r7 => { x with r7 := v }

/-- Read a register of the state. -/
def State.reg (s : State) (r : Reg) : Word := s.x.get r

/-- Write a register of the state. -/
def State.setReg (s : State) (r : Reg) (v : Word) : State := { s with x := s.x.set r v }

/-- `pc <- v` (R20). -/
def State.setPc (s : State) (v : Word) : State := { s with pc := v }

/-- `psr <- v`, all 16 bits (R23). -/
def State.setPsr (s : State) (v : Word) : State := { s with psr := v }

/-- `x[DR] <- v` and then `setCC(v)`: the ending of ADD, AND, NOT, LD, LDR and LEA (R75). -/
def State.setRegCC (s : State) (r : Reg) (v : Word) : State :=
  (s.setReg r v).setPsr (setCC v s.psr)

/-! ## Memory (spec/20_memory.md R36, R37, R45) -/

/-- What an address that memory does not list reads as. The spec leaves memory's power-on contents
unspecified (R113); zero is the model's choice, DESIGN CHOICE, unsafe (log entry 4). -/
def unlistedWord : Word := 0

/-- `mem[a]`. -/
def Memory.read (m : Memory) (a : Nat) : Word :=
  match m with
  | [] => unlistedWord
  | (b, v) :: rest => if b = a then v else Memory.read rest a

/-- The cells other than address a's. -/
def Memory.erase (m : Memory) (a : Nat) : Memory :=
  match m with
  | [] => []
  | (b, v) :: rest => if b = a then Memory.erase rest a else (b, v) :: Memory.erase rest a

/-- Put a cell before the first one of a higher address. -/
def Memory.insert (m : Memory) (a : Nat) (v : Word) : Memory :=
  match m with
  | [] => [(a, v)]
  | (b, w) :: rest =>
    if a < b then (a, v) :: (b, w) :: rest else (b, w) :: Memory.insert rest a v

/-- `mem[a] <- v`, keeping the canonical form: a word equal to what an unlisted address reads as is
not listed. -/
def Memory.write (m : Memory) (a : Nat) (v : Word) : Memory :=
  if v = unlistedWord then m.erase a else (m.erase a).insert a v

/-- The canonical form: addresses strictly rising and below 65536, no cell that could be left out. -/
abbrev Memory.wf (m : Memory) : Prop :=
  m.Pairwise (fun c d => c.1 < d.1) ∧ ∀ c ∈ m, c.1 < 0x10000 ∧ c.2 ≠ unlistedWord

/-- `ws[0]` to address a, `ws[1]` to a + 1, and so on (spec/70_reset_and_hazards.md R114). -/
def Memory.load (m : Memory) (a : Nat) (ws : List Word) : Memory :=
  match ws with
  | [] => m
  | w :: rest => Memory.load (m.write a w) (a + 1) rest

/-- `MemRead(a, 1)` at an address already checked (R37; a Word is always in 0..0xFFFF). -/
def State.memRead (s : State) (a : Word) : Word := s.mem.read a.toNat

/-- `MemWrite(a, 1, v)` at an address already checked (R37). -/
def State.memWrite (s : State) (a v : Word) : State := { s with mem := s.mem.write a.toNat v }

/-- `checkAddr(a)`: the address where it is in 0..0xFFFF, and AddressOutOfRange(a) otherwise, "rather
than silently wrapping" (R38, spec/00_scope.md R12). -/
def checkAddr (a : Int) : Except FaultKind Word :=
  match a with
  | .ofNat n => if n < 0x10000 then .ok (BitVec.ofNat 16 n) else .error (.addressOutOfRange a)
  | .negSucc _ => .error (.addressOutOfRange a)

/-! ## Console buffers, cost, run state, breakpoints (spec/10_state.md R26 to R30) -/

/-- `In.cursor <- c` (R26). -/
def State.setCursor (s : State) (c : Nat) : State := { s with cursor := c }

/-- `Out.append`, of several codes in order (R27). -/
def State.appendOutput (s : State) (cs : List CharCode) : State :=
  { s with output := s.output ++ cs }

/-- Add to the cost accumulator (R29). -/
def State.addCost (s : State) (c : Nat) : State := { s with cost := s.cost + c }

/-- `runState <- r` (R30). -/
def State.setRunState (s : State) (r : RunState) : State := { s with runState := r }

/-- `bp ∪ {a}`, kept strictly rising; adding a member changes nothing: "idempotent" (R28). -/
def Breakpoints.insert (b : Breakpoints) (a : Word) : Breakpoints :=
  match b with
  | [] => [a]
  | c :: rest =>
    if a.toNat < c.toNat then a :: c :: rest
    else if a = c then c :: rest
    else c :: Breakpoints.insert rest a

/-- The canonical form of a set of addresses. -/
abbrev Breakpoints.wf (b : Breakpoints) : Prop := b.Pairwise (fun c d => c.toNat < d.toNat)

/-! ## Taking a fault, and returning from interrupt -/

/-- The code of a fault kind, "for a model's enumeration only": no program can read it (R99, D25). -/
def FaultKind.code : FaultKind → Nat
  | .privilegeFault => 1
  | .unsupportedTrap _ => 2
  | .inputExhausted => 3
  | .addressOutOfRange _ => 4
  | .illegalInstruction _ => 5

/-- Taking a fault, from the state before the fetch: everything "exactly as they were before the
fetch, and no cost is added" (spec/60_exceptions.md R100), and `runState` becomes Faulted(kind)
(R101, spec/40_cycle.md R64). There is no handler and no vector: nothing is saved and the pc stays at
the faulting instruction. -/
def State.takeFault (s : State) (k : FaultKind) : State := s.setRunState (.faulted k)

/-- R66's Step around an instruction's execute part: snapshot, the pc increment with its range check,
the body (which sees pc = A + 1), and its base cost; a fault anywhere restores the snapshot and is
taken. -/
def atomically (op : BitVec 4) (s : State) (body : State → Except FaultKind State) :
    Host.Outcome State Fault Refusal :=
  match checkAddr (s.pc.toNat + 1) with
  | .error k => .next (s.takeFault k)
  | .ok pc =>
    match body (s.setPc pc) with
    | .error k => .next (s.takeFault k)
    | .ok t => .next (t.addCost (Config.baseCost op))

/-- The pop of RTI, the CORE's only return (spec/42_control.md R84, spec/60_exceptions.md R105):
PrivilegeFault first, then the pc from x[6] and the whole psr from x[6] + 1, both addresses and the
final x[6] range-checked. -/
def returnFromInterrupt (s : State) : Except FaultKind State :=
  if rtiPermitted s.psr then
    let sp := s.reg .r6
    match checkAddr (sp.toNat + 1) with
    | .error k => .error k
    | .ok second =>
      match checkAddr (sp.toNat + 2) with
      | .error k => .error k
      | .ok top =>
        .ok (((s.setReg .r6 top).setPc (s.memRead sp)).setPsr (s.memRead second))
  else .error .privilegeFault

end Sys2Proof.Machine
end

