-- ==== Sys2Proof/Machine/Operands.lean ====
section
/-! DEFINITION. Every operand form: sign and zero extension (spec/00_scope.md R11), the second operand
of ADD and AND (spec/30_encoding.md R53, R54), and the effective addresses of the addressing modes
(spec/43_data_movement.md R85). -/

namespace Sys2Proof.Machine

/-- `sext_N(f) = f - 2^N` when `f[N-1] = 1`, and `f` otherwise (R11). -/
def sext {n : Nat} (f : BitVec n) : Int :=
  if f.getLsbD (n - 1) then (f.toNat : Int) - 2 ^ n else (f.toNat : Int)

/-- `zext_16(c)` of a character code (R11, spec/44_trap.md R95). -/
def zext16 (c : CharCode) : Word := c.setWidth 16

/-- `v[CHAR_BITS-1:0]`, the character code a word holds (R96, R97). -/
def charOf (v : Word) : CharCode := v.setWidth Config.charBits

/-- The immediate operand of ADD and AND: imm5 "sign-extended to 16 bits first" (R74). -/
def immOperand (imm : BitVec 5) : Word := trunc16 (sext imm)

/-- PC-relative with PCoffset9: `checkAddr(pc + sext_9(PCoffset9))`, pc = A + 1 (R85). -/
def pcRelative9 (s : State) (off : BitVec 9) : Except FaultKind Word :=
  checkAddr (s.pc.toNat + sext off)

/-- PC-relative with PCoffset11, JSR's target (R82). -/
def pcRelative11 (s : State) (off : BitVec 11) : Except FaultKind Word :=
  checkAddr (s.pc.toNat + sext off)

/-- Base + offset: `checkAddr(x[BaseR][15:0] + sext_6(offset6))` (R85); the mask is the identity on a
16-bit register (spec/20_memory.md R39). -/
def baseOffset (s : State) (base : Reg) (off : BitVec 6) : Except FaultKind Word :=
  checkAddr ((s.reg base).toNat + sext off)

/-- Indirect: `MemRead(checkAddr(pc + sext_9(PCoffset9)), 1)`; the pointer is a memory word and always
in range (R85, R87). -/
def indirect (s : State) (off : BitVec 9) : Except FaultKind Word :=
  match pcRelative9 s off with
  | .error k => .error k
  | .ok p => .ok (s.memRead p)

/-- A register as an address: `x[BaseR][15:0]` (R81, R83). -/
def registerTarget (s : State) (base : Reg) : Word := s.reg base

end Sys2Proof.Machine
end

