-- ==== Sys2Proof/Machine/Control.lean ====
section
/-! DEFINITION. The control instructions BR, JMP, JSR, JSRR and RTI (spec/42_control.md). In every body
`pc` already holds A + 1. -/

namespace Sys2Proof.Machine

/-- BR: a branch not taken computes no target and cannot fault (R80). -/
def execBr (n z p : Bool) (off : BitVec 9) (s : State) : Host.Outcome State Fault Refusal :=
  atomically 0b0000 s fun s =>
    if branchTaken n z p s.psr then
      match pcRelative9 s off with
      | .error k => .error k
      | .ok target => .ok (s.setPc target)
    else .ok s

/-- JMP; RET is JMP R7 (R81). -/
def execJmp (base : Reg) (s : State) : Host.Outcome State Fault Refusal :=
  atomically 0b1100 s fun s => .ok (s.setPc (registerTarget s base))

/-- JSR: the target is checked before R7 is written (R82). -/
def execJsr (off : BitVec 11) (s : State) : Host.Outcome State Fault Refusal :=
  atomically 0b0100 s fun s =>
    match pcRelative11 s off with
    | .error k => .error k
    | .ok target => .ok ((s.setReg .r7 s.pc).setPc target)

/-- JSRR: R7 is written first and BaseR read after it, so `JSRR R7` goes to A + 1 (R83, D13; log
entry 19). -/
def execJsrr (base : Reg) (s : State) : Host.Outcome State Fault Refusal :=
  atomically 0b0100 s fun s =>
    let linked := s.setReg .r7 s.pc
    .ok (linked.setPc (registerTarget linked base))

/-- RTI: the pop of `returnFromInterrupt` (R84). -/
def execRti (s : State) : Host.Outcome State Fault Refusal :=
  atomically 0b1000 s returnFromInterrupt

end Sys2Proof.Machine
end

