-- ==== Sys2Proof/Machine/DataMovement.lean ====
section
/-! DEFINITION. The data-movement instructions LD, LDI, ST, STI, LDR, STR and LEA
(spec/43_data_movement.md). In every body `pc` already holds A + 1. -/

namespace Sys2Proof.Machine

/-- LD (R86). -/
def execLd (dr : Reg) (off : BitVec 9) (s : State) : Host.Outcome State Fault Refusal :=
  atomically 0b0010 s fun s =>
    match pcRelative9 s off with
    | .error k => .error k
    | .ok a => .ok (s.setRegCC dr (s.memRead a))

/-- LDI: N, Z and P stay unchanged (R87, D21; log entry 18). -/
def execLdi (dr : Reg) (off : BitVec 9) (s : State) : Host.Outcome State Fault Refusal :=
  atomically 0b1010 s fun s =>
    match indirect s off with
    | .error k => .error k
    | .ok a => .ok (s.setReg dr (s.memRead a))

/-- ST (R88). -/
def execSt (sr : Reg) (off : BitVec 9) (s : State) : Host.Outcome State Fault Refusal :=
  atomically 0b0011 s fun s =>
    match pcRelative9 s off with
    | .error k => .error k
    | .ok a => .ok (s.memWrite a (s.reg sr))

/-- STI (R89). -/
def execSti (sr : Reg) (off : BitVec 9) (s : State) : Host.Outcome State Fault Refusal :=
  atomically 0b1011 s fun s =>
    match indirect s off with
    | .error k => .error k
    | .ok a => .ok (s.memWrite a (s.reg sr))

/-- LDR: the base is read before the write (R90). -/
def execLdr (dr base : Reg) (off : BitVec 6) (s : State) : Host.Outcome State Fault Refusal :=
  atomically 0b0110 s fun s =>
    match baseOffset s base off with
    | .error k => .error k
    | .ok a => .ok (s.setRegCC dr (s.memRead a))

/-- STR (R91). -/
def execStr (sr base : Reg) (off : BitVec 6) (s : State) : Host.Outcome State Fault Refusal :=
  atomically 0b0111 s fun s =>
    match baseOffset s base off with
    | .error k => .error k
    | .ok a => .ok (s.memWrite a (s.reg sr))

/-- LEA: the address itself, no memory access; it updates N, Z and P (R92). -/
def execLea (dr : Reg) (off : BitVec 9) (s : State) : Host.Outcome State Fault Refusal :=
  atomically 0b1110 s fun s =>
    match pcRelative9 s off with
    | .error k => .error k
    | .ok a => .ok (s.setRegCC dr a)

end Sys2Proof.Machine
end

