-- ==== Sys2Proof/Machine/Operate.lean ====
section
/-! DEFINITION. The operate instructions ADD, AND and NOT (spec/41_operate.md). -/

namespace Sys2Proof.Machine

/-! ## The ALU's three operations (R74) -/

/-- 16-bit two's-complement addition, wrapping modulo 2^16 (R74). -/
def aluAdd (a b : Word) : Word := a + b
/-- Bitwise AND (R74). -/
def aluAnd (a b : Word) : Word := a &&& b
/-- `x XOR 0xFFFF`, the 16-bit complement (R78). -/
def aluNot (a : Word) : Word := a ^^^ 0xFFFF#16

/-! ## Meanings -/

/-- ADD DR, SR1, SR2 (R76). -/
def execAddReg (dr sr1 sr2 : Reg) (s : State) : Host.Outcome State Fault Refusal :=
  atomically 0b0001 s fun s => .ok (s.setRegCC dr (aluAdd (s.reg sr1) (s.reg sr2)))

/-- ADD DR, SR1, #imm5 (R76). -/
def execAddImm (dr sr1 : Reg) (imm : BitVec 5) (s : State) : Host.Outcome State Fault Refusal :=
  atomically 0b0001 s fun s => .ok (s.setRegCC dr (aluAdd (s.reg sr1) (immOperand imm)))

/-- AND DR, SR1, SR2 (R77). -/
def execAndReg (dr sr1 sr2 : Reg) (s : State) : Host.Outcome State Fault Refusal :=
  atomically 0b0101 s fun s => .ok (s.setRegCC dr (aluAnd (s.reg sr1) (s.reg sr2)))

/-- AND DR, SR1, #imm5 (R77). -/
def execAndImm (dr sr1 : Reg) (imm : BitVec 5) (s : State) : Host.Outcome State Fault Refusal :=
  atomically 0b0101 s fun s => .ok (s.setRegCC dr (aluAnd (s.reg sr1) (immOperand imm)))

/-- NOT DR, SR (R78). -/
def execNot (dr sr : Reg) (s : State) : Host.Outcome State Fault Refusal :=
  atomically 0b1001 s fun s => .ok (s.setRegCC dr (aluNot (s.reg sr)))

end Sys2Proof.Machine
end

