-- ==== Sys2Proof/Machine/Stop.lean ====
section
/-! DEFINITION. The two table rows that are no instruction of the engine, and words that decode to
nothing: the reserved opcode (spec/30_encoding.md R56), the halt word (spec/40_cycle.md R63), and an
Illegal word (R57). -/

namespace Sys2Proof.Machine

/-- A word with no meaning: IllegalInstruction, recording the word, after the fetch increment's own
range check (spec/40_cycle.md R66, spec/60_exceptions.md R102). -/
def raiseIllegal (w : Word) (s : State) : Host.Outcome State Fault Refusal :=
  atomically (opcodeField w) s fun _ => .error (.illegalInstruction w)

/-- The RESERVED row: every word of opcode 1101 raises IllegalInstruction with no state change (R56). -/
def execReserved (low : BitVec 12) (s : State) : Host.Outcome State Fault Refusal :=
  raiseIllegal (encode (.reserved low)) s

/-- The HALT row: the run stops with Halted, the pc left at the halt word, no cost, nothing else
changed (R63). -/
def execHalt (s : State) : Host.Outcome State Fault Refusal :=
  .next (s.setRunState .halted)

end Sys2Proof.Machine
end

