-- ==== Sys2Proof/Machine/Trap.lean ====
section
/-! DEFINITION. TRAP and the trap-handler dispatcher (spec/44_trap.md): three console services, native
and atomic, each answering the state after it and its cost. -/

namespace Sys2Proof.Machine

/-! ## The services -/

/-- Console input, vector 0x20: one character into R0, not echoed, no CC update; cost 28 (R95). -/
def consoleInput (s : State) : Except FaultKind (State × Nat) :=
  match s.input[s.cursor]? with
  | none => .error .inputExhausted
  | some c => .ok ((s.setCursor (s.cursor + 1)).setReg .r0 (zext16 c), 28)

/-- Console output, vector 0x21: the low CHAR_BITS bits of R0; cost 36 (R96). -/
def consoleOutput (s : State) : Except FaultKind (State × Nat) :=
  .ok (s.appendOutput [charOf (s.reg .r0)], 36)

/-- R97's scan from address a: the codes of the words before the first whole zero word, each address
range-checked. `room` is how many addresses from a on exist, so it runs out exactly at 0x10000, where
the check fails (log entry 23). -/
def scanString (m : Memory) : (room a : Nat) → Except FaultKind (List CharCode)
  | 0, a => .error (.addressOutOfRange a)
  | room + 1, a =>
    if m.read a = 0x0000#16 then .ok []
    else
      match scanString m room (a + 1) with
      | .error k => .error k
      | .ok cs => .ok (charOf (m.read a) :: cs)

/-- Null-terminated string output, vector 0x22: the codes from R0 on; cost 40 + 27 × n (R97). -/
def stringOutput (s : State) : Except FaultKind (State × Nat) :=
  let start := (s.reg .r0).toNat
  match scanString s.mem (0x10000 - start) start with
  | .error k => .error k
  | .ok cs => .ok (s.appendOutput cs, 40 + 27 * cs.length)

/-- The dispatcher: the whole 8-bit vector selects the service, and every vector but 0x20, 0x21 and
0x22 raises UnsupportedTrap (R94, R98). -/
def trapService (vect : BitVec 8) (s : State) : Except FaultKind (State × Nat) :=
  match vect.toNat with
  | 0x20 => consoleInput s
  | 0x21 => consoleOutput s
  | 0x22 => stringOutput s
  | _ => .error (.unsupportedTrap vect)

/-! ## The instruction -/

/-- TRAP: `x[7] <- pc` (A + 1), then the service; the pc stays A + 1 (R93, R104). -/
def execTrap (vect : BitVec 8) (s : State) : Host.Outcome State Fault Refusal :=
  atomically 0b1111 s fun s =>
    match trapService vect (s.setReg .r7 s.pc) with
    | .error k => .error k
    | .ok (t, tc) => .ok (t.addCost tc)

end Sys2Proof.Machine
end

