-- ==== Sys2Proof/Machine/RunLoop.lean ====
section
/-! DEFINITION. One iteration of the run loop (spec/40_cycle.md R61): the breakpoint check, the halt
check (the decoder's first test), and the Step. -/

namespace Sys2Proof.Machine

/-- `MemRead(pc, 1)`: the word the next fetch reads, "the current content of mem[pc]" (R67). -/
def State.fetchWord (s : State) : Word := s.memRead s.pc

/-- R61's loop body, in the order of spec/60_exceptions.md R102: breakpoint, halt, fetch increment,
decode, the instruction. -/
def runLoopIteration (s : State) : Host.Outcome State Fault Refusal :=
  if s.pc ∈ s.bp then .next (s.setRunState .breakpointed)
  else
    match decode s.fetchWord with
    | .ok i => exec i s
    | .error (.unusedBits w) => raiseIllegal w s

/-- The loop runs only between a Run's start and its terminal state (R72). -/
def runLoop (s : State) : Host.Outcome State Fault Refusal :=
  match s.runState with
  | .running => runLoopIteration s
  | .idle => .fault .noRunInProgress
  | .halted => .fault .noRunInProgress
  | .breakpointed => .fault .noRunInProgress
  | .faulted _ => .fault .noRunInProgress

/-- Place a word where the next iteration fetches, start the loop there and let no breakpoint stop it:
what a host's Initialize and Run would do for this one word (log entry 16). -/
def State.placeFetchWord (s : State) (w : Word) : State :=
  { s with
    mem := s.mem.write s.pc.toNat w
    bp := s.bp.filter (fun a => a != s.pc)
    runState := .running }

end Sys2Proof.Machine
end

