-- ==== Sys2Proof/Machine/Step.lean ====
section
/-! DEFINITION. One step of the machine, and the state in which a given word is what it runs next. -/

namespace Sys2Proof.Machine

/-- One step: an iteration of the run loop (spec/40_cycle.md R61). -/
def step (s : State) : Host.Outcome State Fault Refusal := runLoop s

/-- The state whose next step runs the opcode-table word `w` (log entry 16). -/
def State.withFetchWord (s : State) (nbits w : Nat) : State := s.placeFetchWord (tableWord nbits w)

end Sys2Proof.Machine
end

