-- ==== Sys2Proof/Machine/HostInterface.lean ====
section
/-! DEFINITION. The CORE's transaction-level interface (spec/10_state.md R34): the operations a host
calls between runs, each one indivisible transaction on the state. `hostCall` is the transaction, of
Run its start; `hostOperation` is the whole operation, of Run its loop too, up to what it returns. -/

namespace Sys2Proof.Machine

/-- The host's operations, with the arguments a host can pass; one out of range is refused. -/
inductive HostCall where
  /-- Initialize(startAddress, wordStream) (R114). -/
  | initializeCore (start : Nat) (words : List Nat)
  /-- Run(startAddress) (R61). -/
  | run (start : Nat)
  /-- AddBreakpoint(address) (R28). -/
  | addBreakpoint (address : Nat)
  /-- SetInput(characters) (R26). -/
  | setInput (codes : List Nat)
  /-- GetOutput() (R27). -/
  | getOutput
  /-- Inspect() (R34). -/
  | inspect
  deriving DecidableEq, Repr

/-- What Inspect reads: "x[0..7], pc, psr, mem, runState, In.cursor" (R34). -/
structure Inspection where
  x : Regs
  pc : Word
  psr : Word
  mem : Memory
  runState : RunState
  cursor : Nat
  deriving DecidableEq, Repr

/-- What a host operation returns. -/
inductive HostReply where
  /-- Initialize's Ok, and the operations that return nothing. -/
  | ok
  /-- Initialize's AddressOutOfRange: rejected whole, no state change (R114). -/
  | addressOutOfRange
  /-- GetOutput's Out. -/
  | output (codes : List CharCode)
  /-- Inspect's reading. -/
  | inspection (view : Inspection)
  /-- Run's result: "totalCost (natural) and the terminal state" (R34), the terminal state being "which
  of Halted/Breakpointed/Faulted, and why" (R30). -/
  | runResult (totalCost : Nat) (terminal : RunState)
  /-- Run has not returned yet: its loop has reached no terminal state. Not a value a host gets (R65; log
  entry 27). -/
  | inProgress
  deriving DecidableEq, Repr

/-- Whether every element is below the bound. -/
def allBelow (bound : Nat) (vs : List Nat) : Bool := vs.all (fun v => decide (v < bound))

/-- R114's test of the range: `0 <= s <= 0xFFFF and s + length(ws) <= 0x10000`. -/
def initializeFits (start : Nat) (words : List Nat) : Bool :=
  decide (start ≤ 0xFFFF) && decide (start + words.length ≤ 0x10000)

/-- Initialize after its arguments are checked: memory loaded, pc set, cursor reset, Out cleared,
nothing else (R114). -/
def State.initializeCore (s : State) (start : Nat) (words : List Nat) : State :=
  { s with
    mem := s.mem.load start (words.map (BitVec.ofNat 16))
    pc := BitVec.ofNat 16 start
    cursor := 0
    output := [] }

/-- Run before its loop: `pc <- s; cost <- 0; Out <- []; runState <- Running` (R61). -/
def State.startRun (s : State) (start : Nat) : State :=
  { s with
    pc := BitVec.ofNat 16 start
    cost := 0
    output := []
    runState := .running }

/-- SetInput: `In <- characters; In.cursor <- 0` (R26). -/
def State.setInput (s : State) (codes : List Nat) : State :=
  { s with input := codes.map (BitVec.ofNat Config.charBits), cursor := 0 }

/-- AddBreakpoint: `bp <- bp ∪ {address}` (R28). -/
def State.addBreakpoint (s : State) (address : Nat) : State :=
  { s with bp := s.bp.insert (BitVec.ofNat 16 address) }

/-- Inspect's reading of the state (R34). -/
def State.view (s : State) : Inspection :=
  { x := s.x, pc := s.pc, psr := s.psr, mem := s.mem, runState := s.runState, cursor := s.cursor }

/-- One host operation between runs: the state after it and what it returns; of Run the part before
its loop, which returns nothing yet. An argument out of range
is refused (R34, D3, D29, D30); Initialize's address range is its own returned error (R114; log entry
20). -/
def hostTransaction (c : HostCall) (s : State) : Host.Outcome (State × HostReply) Fault Refusal :=
  match c with
  | .initializeCore start words =>
    if allBelow 0x10000 words then
      if initializeFits start words then .next (s.initializeCore start words, .ok)
      else .next (s, .addressOutOfRange)
    else .refused .hostArgumentOutOfRange
  | .run start =>
    if start ≤ 0xFFFF then .next (s.startRun start, .inProgress)
    else .refused .hostArgumentOutOfRange
  | .addBreakpoint address =>
    if address ≤ 0xFFFF then .next (s.addBreakpoint address, .ok)
    else .refused .hostArgumentOutOfRange
  | .setInput codes =>
    if allBelow (2 ^ Config.charBits) codes then .next (s.setInput codes, .ok)
    else .refused .hostArgumentOutOfRange
  | .getOutput => .next (s, .output s.output)
  | .inspect => .next (s, .inspection s.view)

/-- A host operation: only between runs, so one called during a run is refused (R35, I14; log
entry 21). -/
def hostCall (c : HostCall) (s : State) : Host.Outcome (State × HostReply) Fault Refusal :=
  match s.runState with
  | .running => .refused .hostCallDuringRun
  | .idle => hostTransaction c s
  | .halted => hostTransaction c s
  | .breakpointed => hostTransaction c s
  | .faulted _ => hostTransaction c s

/-- GetOutput's "single text value" under the host's own code-to-character map (R27, D40). -/
def State.outputText (s : State) : List Char := s.output.map Config.charText

/-- Follow the run loop for at most `n` iterations. Running out of iterations is no terminal state
(spec/40_cycle.md R65): the state is then still Running. -/
def runFor : Nat → State → State
  | 0, s => s
  | n + 1, s =>
    match step s with
    | .next t => runFor n t
    | .fault _ => s
    | .refused _ => s

/-! ## The whole of an operation -/

/-- What Run returns from the state its loop has reached: in a terminal state, the accumulated cost and
that terminal state; before one, nothing (R29, R61, R73). -/
def State.runReply (s : State) : HostReply :=
  match s.runState with
  | .halted => .runResult s.cost .halted
  | .breakpointed => .runResult s.cost .breakpointed
  | .faulted k => .runResult s.cost (.faulted k)
  | .idle => .inProgress
  | .running => .inProgress

/-- Go on with an operation whose transaction has answered: only Run has a loop to follow, here for at
most `n` iterations. -/
def followRun (n : Nat) (o : Host.Outcome (State × HostReply) Fault Refusal) :
    Host.Outcome (State × HostReply) Fault Refusal :=
  match o with
  | .next (t, .inProgress) => .next (runFor n t, (runFor n t).runReply)
  | .next (t, .ok) => .next (t, .ok)
  | .next (t, .addressOutOfRange) => .next (t, .addressOutOfRange)
  | .next (t, .output cs) => .next (t, .output cs)
  | .next (t, .inspection v) => .next (t, .inspection v)
  | .next (t, .runResult c r) => .next (t, .runResult c r)
  | .fault e => .fault e
  | .refused e => .refused e

/-- A host operation of R34's table from its call to what it returns: Run with its loop, followed for
at most `n` iterations. -/
def hostOperation (n : Nat) (c : HostCall) (s : State) :
    Host.Outcome (State × HostReply) Fault Refusal :=
  followRun n (hostCall c s)

/-- The operation `c`, called in `s`, returns `r` and leaves `t`. Every operation but Run returns at
once; a Run may never return (R65). -/
def HostReturns (c : HostCall) (s t : State) (r : HostReply) : Prop :=
  r ≠ .inProgress ∧ ∃ n, hostOperation n c s = .next (t, r)

end Sys2Proof.Machine
end

