-- ==== Sys2Proof/Safety.lean ====
section
/-! DEFINITION. The terms claims are written in: the invariant of the state, what counts as a run that
ends and as a safe one, and the shapes an instruction's effect takes. They are written from the spec's
words over the state's fields, not over the meanings. -/

namespace Sys2Proof.Machine

/-! ## The invariant -/

/-- What every state of the CORE meets: memory and the breakpoint set are in their canonical form, and
`In.cursor` is in 0..length(In) (R26). -/
structure State.Inv (s : State) : Prop where
  mem_wf : s.mem.wf
  bp_wf : s.bp.wf
  cursor_le : s.cursor ≤ s.input.length

/-! ## Runs -/

/-- Halted, Breakpointed and Faulted "are terminal for that run call" (R72). -/
def RunState.isTerminal : RunState → Bool
  | .idle => false
  | .running => false
  | .halted => true
  | .breakpointed => true
  | .faulted _ => true

/-- A run that ends, in state t: "a run ends exactly when runState becomes Halted, Breakpointed or
Faulted(k)" (R73). The cost Run returns is t's. -/
def RunEnds (s t : State) : Prop := ∃ n, runFor n s = t ∧ t.runState.isTerminal = true

/-- A safe run: no iteration of the loop leaves a faulted state. -/
def SafeRun (s : State) : Prop := ∀ n k, (runFor n s).runState ≠ .faulted k

/-- A run is in progress and the next thing it does is fetch: no breakpoint at pc (R61, R62). -/
structure AboutToFetch (s : State) : Prop where
  running : s.runState = .running
  noBreak : s.pc ∉ s.bp

/-- The pc increment at fetch is in range: `A + 1` is an address (R68). -/
def Fetchable (s : State) : Prop := s.pc.toNat < 0xFFFF

/-! ## Shapes of effects -/

/-- The fields no instruction but a trap service writes are as before. -/
structure SameHostState (s t : State) : Prop where
  bp : t.bp = s.bp
  input : t.input = s.input
  cursor : t.cursor = s.cursor
  output : t.output = s.output
  runState : t.runState = s.runState

/-- Register r gets v and every other register keeps its value. -/
structure WritesRegister (s t : State) (r : Reg) (v : Word) : Prop where
  written : t.reg r = v
  others : ∀ q, q ≠ r → t.reg q = s.reg q

/-- Every register keeps its value. -/
def SameRegisters (s t : State) : Prop := ∀ q, t.reg q = s.reg q

/-- The status register after a result v: N, Z and P from its sign, every other bit as before (R75). -/
structure FlagsFrom (v old new : Word) : Prop where
  negative : new.getLsbD 2 = decide (v.toInt < 0)
  zero : new.getLsbD 1 = decide (v = 0)
  positive : new.getLsbD 0 = decide (0 < v.toInt)
  others : ∀ i, 3 ≤ i → new.getLsbD i = old.getLsbD i

/-- The pc is A + 1 and the cost has grown by c. -/
structure Advances (s t : State) (c : Nat) : Prop where
  pc : t.pc.toNat = s.pc.toNat + 1
  cost : t.cost = s.cost + c

/-- A register result with its condition codes, and nothing else but the pc and the cost. -/
structure ResultWithFlags (s t : State) (r : Reg) (v : Word) (c : Nat) : Prop where
  register : WritesRegister s t r v
  flags : FlagsFrom v s.psr t.psr
  memory : t.mem = s.mem
  advance : Advances s t c
  host : SameHostState s t

/-- A register result alone: the status register keeps every bit. -/
structure ResultOnly (s t : State) (r : Reg) (v : Word) (c : Nat) : Prop where
  register : WritesRegister s t r v
  psr : t.psr = s.psr
  memory : t.mem = s.mem
  advance : Advances s t c
  host : SameHostState s t

/-- Word v is stored at address a: every other address reads as before, and nothing else changes but
the pc and the cost. -/
structure StoresWord (s t : State) (a v : Word) (c : Nat) : Prop where
  stored : t.mem.read a.toNat = v
  elsewhere : ∀ b : Word, b ≠ a → t.mem.read b.toNat = s.mem.read b.toNat
  registers : SameRegisters s t
  psr : t.psr = s.psr
  advance : Advances s t c
  host : SameHostState s t

/-- A call: R7 gets A + 1, the pc the target, and nothing else but the cost changes. -/
structure CallsTo (s t : State) (target : Word) (c : Nat) : Prop where
  link : WritesRegister s t .r7 (s.pc + 1#16)
  pc : t.pc = target
  psr : t.psr = s.psr
  memory : t.mem = s.mem
  cost : t.cost = s.cost + c
  host : SameHostState s t

/-- What every completed TRAP leaves: the return address in R7, the pc at A + 1, the status register,
memory, the breakpoints and the input sequence as before (R93, R104). -/
structure TrapCommon (s t : State) (tc : Nat) : Prop where
  link : t.reg .r7 = s.pc + 1#16
  psr : t.psr = s.psr
  memory : t.mem = s.mem
  advance : Advances s t (Config.baseCost 0b1111 + tc)
  bp : t.bp = s.bp
  input : t.input = s.input
  runState : t.runState = s.runState

/-- The integer a PC-relative computation gives, pc = A + 1, the offset sign-extended (R85). -/
def pcRelativeSum (s : State) {n : Nat} (off : BitVec n) : Int := (s.pc.toNat : Int) + 1 + off.toInt

/-- The integer a base + offset computation gives (R85). -/
def baseOffsetSum (s : State) (base : Reg) (off : BitVec 6) : Int :=
  ((s.reg base).toNat : Int) + off.toInt

/-- An integer that is no address (R38). -/
def OutOfRange (a : Int) : Prop := a < 0 ∨ 0xFFFF < a

/-- The status register with another mode bit and every other bit the same. -/
def withModeBit (m : Bool) (psr : Word) : Word := BitVec.ofBool m ++ psr.extractLsb' 0 15

/-- The registers an instruction may write (R19's last column). -/
def destinations : Instr → List Reg
  | .br _ _ _ _ => []
  | .addReg dr _ _ => [dr]
  | .addImm dr _ _ => [dr]
  | .ld dr _ => [dr]
  | .st _ _ => []
  | .jsr _ => [.r7]
  | .jsrr _ => [.r7]
  | .andReg dr _ _ => [dr]
  | .andImm dr _ _ => [dr]
  | .ldr dr _ _ => [dr]
  | .str _ _ _ => []
  | .rti => [.r6]
  | .not dr _ => [dr]
  | .ldi dr _ => [dr]
  | .sti _ _ => []
  | .jmp _ => []
  | .reserved _ => []
  | .lea dr _ => [dr]
  | .trap vect => if vect = 0x20 then [.r0, .r7] else [.r7]
  | .halt => []

/-- The instructions that write the status register: the six with a CC update, and RTI (R24). -/
def writesPsr : Instr → Bool
  | .addReg _ _ _ => true
  | .addImm _ _ _ => true
  | .andReg _ _ _ => true
  | .andImm _ _ _ => true
  | .not _ _ => true
  | .ld _ _ => true
  | .ldr _ _ _ => true
  | .lea _ _ => true
  | .rti => true
  | .br _ _ _ _ => false
  | .st _ _ => false
  | .jsr _ => false
  | .jsrr _ => false
  | .str _ _ _ => false
  | .ldi _ _ => false
  | .sti _ _ => false
  | .jmp _ => false
  | .reserved _ => false
  | .trap _ => false
  | .halt => false

/-- The instructions that write memory (R37). -/
def writesMemory : Instr → Bool
  | .st _ _ => true
  | .sti _ _ => true
  | .str _ _ _ => true
  | .br _ _ _ _ => false
  | .addReg _ _ _ => false
  | .addImm _ _ _ => false
  | .ld _ _ => false
  | .jsr _ => false
  | .jsrr _ => false
  | .andReg _ _ _ => false
  | .andImm _ _ _ => false
  | .ldr _ _ _ => false
  | .rti => false
  | .not _ _ => false
  | .ldi _ _ => false
  | .jmp _ => false
  | .reserved _ => false
  | .lea _ _ => false
  | .trap _ => false
  | .halt => false

end Sys2Proof.Machine
end

