-- ==== Sys2Proof/Certificates/Slice0/Obligations.lean ====
section
/-! DEFINITION. The statements for the provers. Each formalises rules of spec/, in the terms of
Safety.lean. The form "a fault is answered as the next state whose runState is Faulted(kind)" is the
model's (log entry 14); what that state holds is R64's and R100's. Opcode values, field positions and
the PSR layout are the spec's own (R52, R23), which it takes from general knowledge of the LC-3 (D6, D9;
log entries 6 and 11). -/

open Sys2Proof Sys2Proof.Machine

/-! ## Operate instructions -/

/-- R76: ADD in both forms writes the sum modulo 2^16 and the condition codes, costs its base cost and
changes nothing else; its words; nonzero w[4:3] in register mode is Illegal. -/
def Obligations.AddWritesSumAndFlags : Prop :=
  (∀ dr sr1 sr2 s, Fetchable s → ∃ t, exec (.addReg dr sr1 sr2) s = .next t ∧
    ResultWithFlags s t dr (s.reg sr1 + s.reg sr2) (Config.baseCost 0b0001)) ∧
  (∀ dr sr1 imm s, Fetchable s → ∃ t, exec (.addImm dr sr1 imm) s = .next t ∧
    ResultWithFlags s t dr (s.reg sr1 + BitVec.ofInt 16 imm.toInt) (Config.baseCost 0b0001)) ∧
  (∀ dr sr1 sr2 : Reg,
    decode (0b0001#4 ++ dr.bits ++ sr1.bits ++ 0b000#3 ++ sr2.bits) = .ok (.addReg dr sr1 sr2)) ∧
  (∀ (dr sr1 : Reg) (imm : BitVec 5),
    decode (0b0001#4 ++ dr.bits ++ sr1.bits ++ 0b1#1 ++ imm) = .ok (.addImm dr sr1 imm)) ∧
  (∀ w : Word, w.extractLsb' 12 4 = 0b0001#4 → w.getLsbD 5 = false → w.extractLsb' 3 2 ≠ 0 →
    decode w = .error (.unusedBits w))

/-- R77: AND in both forms writes the bitwise AND and the condition codes, costs its base cost and
changes nothing else; its words; nonzero w[4:3] in register mode is Illegal. -/
def Obligations.AndWritesConjunctionAndFlags : Prop :=
  (∀ dr sr1 sr2 s, Fetchable s → ∃ t, exec (.andReg dr sr1 sr2) s = .next t ∧
    ResultWithFlags s t dr (s.reg sr1 &&& s.reg sr2) (Config.baseCost 0b0101)) ∧
  (∀ dr sr1 imm s, Fetchable s → ∃ t, exec (.andImm dr sr1 imm) s = .next t ∧
    ResultWithFlags s t dr (s.reg sr1 &&& BitVec.ofInt 16 imm.toInt) (Config.baseCost 0b0101)) ∧
  (∀ dr sr1 sr2 : Reg,
    decode (0b0101#4 ++ dr.bits ++ sr1.bits ++ 0b000#3 ++ sr2.bits) = .ok (.andReg dr sr1 sr2)) ∧
  (∀ (dr sr1 : Reg) (imm : BitVec 5),
    decode (0b0101#4 ++ dr.bits ++ sr1.bits ++ 0b1#1 ++ imm) = .ok (.andImm dr sr1 imm)) ∧
  (∀ w : Word, w.extractLsb' 12 4 = 0b0101#4 → w.getLsbD 5 = false → w.extractLsb' 3 2 ≠ 0 →
    decode w = .error (.unusedBits w))

/-- R78: NOT writes the 16-bit complement and the condition codes, costs its base cost and changes
nothing else; its word; other low bits are Illegal. -/
def Obligations.NotWritesComplementAndFlags : Prop :=
  (∀ dr sr s, Fetchable s → ∃ t, exec (.not dr sr) s = .next t ∧
    ResultWithFlags s t dr (~~~ (s.reg sr)) (Config.baseCost 0b1001)) ∧
  (∀ dr sr : Reg, decode (0b1001#4 ++ dr.bits ++ sr.bits ++ 0b111111#6) = .ok (.not dr sr)) ∧
  (∀ w : Word, w.extractLsb' 12 4 = 0b1001#4 → w.extractLsb' 0 6 ≠ 0b111111#6 →
    decode w = .error (.unusedBits w))

/-- R75's setCC for every value and every old status register: exactly one of N, Z, P, by the sign of
the 16-bit value; bits 15..3 unchanged. -/
def Obligations.ConditionCodesFollowSign : Prop :=
  ∀ v psr : Word,
    psrN (setCC v psr) = decide (v.toInt < 0) ∧
    psrZ (setCC v psr) = decide (v = 0) ∧
    psrP (setCC v psr) = decide (0 < v.toInt) ∧
    (setCC v psr).extractLsb' 3 13 = psr.extractLsb' 3 13 ∧
    ((setCC v psr).extractLsb' 0 3 = 0b100#3 ∨ (setCC v psr).extractLsb' 0 3 = 0b010#3 ∨
      (setCC v psr).extractLsb' 0 3 = 0b001#3)

/-- R24, who writes: the status register changes by, and only by, ADD, AND, NOT, LD, LDR, LEA and RTI;
the first six change N, Z and P alone, and whenever one of them completes in a run exactly one is set. -/
def Obligations.OnlyDocumentedInstructionsWritePsr : Prop :=
  (∀ i s t, writesPsr i = false → exec i s = .next t → t.psr = s.psr) ∧
  (∀ i s t, i ≠ .rti → exec i s = .next t → ∀ b, 3 ≤ b → t.psr.getLsbD b = s.psr.getLsbD b) ∧
  (∀ i s t, i ≠ .rti → writesPsr i = true → s.runState = .running → exec i s = .next t →
    t.runState = .running →
    t.psr.extractLsb' 0 3 = 0b100#3 ∨ t.psr.extractLsb' 0 3 = 0b010#3 ∨
      t.psr.extractLsb' 0 3 = 0b001#3)

/-- R24, who reads: N, Z and P are read only by BR. From two states that differ in the status register
alone, the mode bit agreeing, any other instruction does the same; and each bit of the second status
register after it is the one the first run leaves (written by the instruction) or, in both runs, the
one that was there (carried through). -/
def Obligations.OnlyBranchReadsConditionCodes : Prop :=
  ∀ (i : Instr) (s t : State) (psr : Word), (∀ n z p off, i ≠ .br n z p off) →
    psr.getLsbD 15 = s.psr.getLsbD 15 → exec i s = .next t →
    ∃ psr', exec i { s with psr := psr } = .next { t with psr := psr' } ∧
      ∀ b, psr'.getLsbD b = t.psr.getLsbD b ∨
        (psr'.getLsbD b = psr.getLsbD b ∧ t.psr.getLsbD b = s.psr.getLsbD b)

/-! ## Control instructions -/

/-- R80: BR goes to A + 1 + offset when a named condition code is set, faults when that is no address,
and is a no-op otherwise, whatever its target would be. -/
def Obligations.BranchFollowsConditionCodes : Prop :=
  (∀ n z p (off : BitVec 9) s, Fetchable s →
    ((n = true ∧ s.psr.getLsbD 2 = true) ∨ (z = true ∧ s.psr.getLsbD 1 = true) ∨
      (p = true ∧ s.psr.getLsbD 0 = true)) →
    (∀ a : Word, (a.toNat : Int) = pcRelativeSum s off →
      exec (.br n z p off) s =
        .next { s with pc := a, cost := s.cost + Config.baseCost 0b0000 }) ∧
    (OutOfRange (pcRelativeSum s off) →
      exec (.br n z p off) s =
        .next { s with runState := .faulted (.addressOutOfRange (pcRelativeSum s off)) })) ∧
  (∀ n z p (off : BitVec 9) s, Fetchable s →
    ¬ ((n = true ∧ s.psr.getLsbD 2 = true) ∨ (z = true ∧ s.psr.getLsbD 1 = true) ∨
      (p = true ∧ s.psr.getLsbD 0 = true)) →
    exec (.br n z p off) s =
      .next { s with pc := s.pc + 1#16, cost := s.cost + Config.baseCost 0b0000 }) ∧
  (∀ (n z p : Bool) (off : BitVec 9),
    decode (0b0000#4 ++ BitVec.ofBool n ++ BitVec.ofBool z ++ BitVec.ofBool p ++ off) =
      .ok (.br n z p off))

/-- R81: JMP sets the pc to the register, costs its base cost and changes nothing else; its word, RET's
among them; nonzero unused bits are Illegal. -/
def Obligations.JumpGoesToRegister : Prop :=
  (∀ base s, Fetchable s → exec (.jmp base) s =
    .next { s with pc := s.reg base, cost := s.cost + Config.baseCost 0b1100 }) ∧
  (∀ base : Reg, decode (0b1100#4 ++ 0b000#3 ++ base.bits ++ 0b000000#6) = .ok (.jmp base)) ∧
  decode 0xC1C0#16 = .ok (.jmp .r7) ∧
  (∀ w : Word, w.extractLsb' 12 4 = 0b1100#4 → (w.extractLsb' 9 3 ≠ 0 ∨ w.extractLsb' 0 6 ≠ 0) →
    decode w = .error (.unusedBits w))

/-- R82: JSR saves A + 1 in R7 and goes to A + 1 + offset; out of range it faults and R7 is not
written. -/
def Obligations.JsrLinksAndJumps : Prop :=
  (∀ (off : BitVec 11) s, Fetchable s →
    (∀ a : Word, (a.toNat : Int) = pcRelativeSum s off →
      ∃ t, exec (.jsr off) s = .next t ∧ CallsTo s t a (Config.baseCost 0b0100)) ∧
    (OutOfRange (pcRelativeSum s off) →
      exec (.jsr off) s =
        .next { s with runState := .faulted (.addressOutOfRange (pcRelativeSum s off)) })) ∧
  (∀ off : BitVec 11, decode (0b0100#4 ++ 0b1#1 ++ off) = .ok (.jsr off))

/-- R83: JSRR writes R7 first and reads BaseR after it, so JSRR R7 goes to A + 1 (the spec's decision
D13); its word; nonzero unused bits are Illegal. -/
def Obligations.JsrrLinksBeforeReadingBase : Prop :=
  (∀ base s, Fetchable s → base ≠ .r7 →
    ∃ t, exec (.jsrr base) s = .next t ∧ CallsTo s t (s.reg base) (Config.baseCost 0b0100)) ∧
  (∀ s, Fetchable s →
    ∃ t, exec (.jsrr .r7) s = .next t ∧ CallsTo s t (s.pc + 1#16) (Config.baseCost 0b0100)) ∧
  (∀ base : Reg, decode (0b0100#4 ++ 0b000#3 ++ base.bits ++ 0b000000#6) = .ok (.jsrr base)) ∧
  (∀ w : Word, w.extractLsb' 12 4 = 0b0100#4 → w.getLsbD 11 = false →
    (w.extractLsb' 9 2 ≠ 0 ∨ w.extractLsb' 0 6 ≠ 0) → decode w = .error (.unusedBits w))

/-- R84: RTI with M = 0 and room on the stack pops the pc, then the whole status register, and adds 2
to R6; with M = 1 it raises PrivilegeFault, checked first; near the top of memory AddressOutOfRange.
A fault leaves all state but runState. -/
def Obligations.RtiPopsPcAndPsr : Prop :=
  (∀ s, Fetchable s → s.psr.getLsbD 15 = false → (s.reg .r6).toNat ≤ 0xFFFD →
    ∃ t, exec .rti s = .next t ∧
      t.pc = s.mem.read (s.reg .r6).toNat ∧
      t.psr = s.mem.read ((s.reg .r6).toNat + 1) ∧
      WritesRegister s t .r6 (s.reg .r6 + 2#16) ∧
      t.mem = s.mem ∧ t.cost = s.cost + Config.baseCost 0b1000 ∧ SameHostState s t) ∧
  (∀ s, Fetchable s → s.psr.getLsbD 15 = true →
    exec .rti s = .next { s with runState := .faulted .privilegeFault }) ∧
  (∀ s, Fetchable s → s.psr.getLsbD 15 = false → 0xFFFE ≤ (s.reg .r6).toNat →
    exec .rti s = .next { s with runState := .faulted (.addressOutOfRange 0x10000) }) ∧
  decode 0x8000#16 = .ok .rti ∧
  (∀ w : Word, w.extractLsb' 12 4 = 0b1000#4 → w ≠ 0x8000#16 → decode w = .error (.unusedBits w))

/-! ## Data movement -/

/-- R86: LD loads the word at A + 1 + offset and sets the condition codes, or faults with nothing
written. -/
def Obligations.LdLoadsPcRelative : Prop :=
  (∀ dr (off : BitVec 9) s, Fetchable s →
    (∀ a : Word, (a.toNat : Int) = pcRelativeSum s off →
      ∃ t, exec (.ld dr off) s = .next t ∧
        ResultWithFlags s t dr (s.mem.read a.toNat) (Config.baseCost 0b0010)) ∧
    (OutOfRange (pcRelativeSum s off) →
      exec (.ld dr off) s =
        .next { s with runState := .faulted (.addressOutOfRange (pcRelativeSum s off)) })) ∧
  (∀ (dr : Reg) (off : BitVec 9), decode (0b0010#4 ++ dr.bits ++ off) = .ok (.ld dr off))

/-- R87: LDI loads through the pointer at A + 1 + offset and leaves N, Z and P unchanged (the spec's
decision D21), or faults. -/
def Obligations.LdiLoadsThroughPointer : Prop :=
  (∀ dr (off : BitVec 9) s, Fetchable s →
    (∀ p : Word, (p.toNat : Int) = pcRelativeSum s off →
      ∃ t, exec (.ldi dr off) s = .next t ∧
        ResultOnly s t dr (s.mem.read (s.mem.read p.toNat).toNat) (Config.baseCost 0b1010)) ∧
    (OutOfRange (pcRelativeSum s off) →
      exec (.ldi dr off) s =
        .next { s with runState := .faulted (.addressOutOfRange (pcRelativeSum s off)) })) ∧
  (∀ (dr : Reg) (off : BitVec 9), decode (0b1010#4 ++ dr.bits ++ off) = .ok (.ldi dr off))

/-- R88: ST stores the register at A + 1 + offset and changes no other word, or faults with memory
unchanged. -/
def Obligations.StStoresPcRelative : Prop :=
  (∀ sr (off : BitVec 9) s, Fetchable s →
    (∀ a : Word, (a.toNat : Int) = pcRelativeSum s off →
      ∃ t, exec (.st sr off) s = .next t ∧ StoresWord s t a (s.reg sr) (Config.baseCost 0b0011)) ∧
    (OutOfRange (pcRelativeSum s off) →
      exec (.st sr off) s =
        .next { s with runState := .faulted (.addressOutOfRange (pcRelativeSum s off)) })) ∧
  (∀ (sr : Reg) (off : BitVec 9), decode (0b0011#4 ++ sr.bits ++ off) = .ok (.st sr off))

/-- R89: STI stores the register through the pointer at A + 1 + offset and changes no other word, or
faults. -/
def Obligations.StiStoresThroughPointer : Prop :=
  (∀ sr (off : BitVec 9) s, Fetchable s →
    (∀ p : Word, (p.toNat : Int) = pcRelativeSum s off →
      ∃ t, exec (.sti sr off) s = .next t ∧
        StoresWord s t (s.mem.read p.toNat) (s.reg sr) (Config.baseCost 0b1011)) ∧
    (OutOfRange (pcRelativeSum s off) →
      exec (.sti sr off) s =
        .next { s with runState := .faulted (.addressOutOfRange (pcRelativeSum s off)) })) ∧
  (∀ (sr : Reg) (off : BitVec 9), decode (0b1011#4 ++ sr.bits ++ off) = .ok (.sti sr off))

/-- R90: LDR loads the word at x[BaseR] + offset and sets the condition codes, or faults. -/
def Obligations.LdrLoadsBaseOffset : Prop :=
  (∀ dr base (off : BitVec 6) s, Fetchable s →
    (∀ a : Word, (a.toNat : Int) = baseOffsetSum s base off →
      ∃ t, exec (.ldr dr base off) s = .next t ∧
        ResultWithFlags s t dr (s.mem.read a.toNat) (Config.baseCost 0b0110)) ∧
    (OutOfRange (baseOffsetSum s base off) →
      exec (.ldr dr base off) s =
        .next { s with runState := .faulted (.addressOutOfRange (baseOffsetSum s base off)) })) ∧
  (∀ (dr base : Reg) (off : BitVec 6),
    decode (0b0110#4 ++ dr.bits ++ base.bits ++ off) = .ok (.ldr dr base off))

/-- R91: STR stores the register at x[BaseR] + offset and changes no other word, or faults. -/
def Obligations.StrStoresBaseOffset : Prop :=
  (∀ sr base (off : BitVec 6) s, Fetchable s →
    (∀ a : Word, (a.toNat : Int) = baseOffsetSum s base off →
      ∃ t, exec (.str sr base off) s = .next t ∧
        StoresWord s t a (s.reg sr) (Config.baseCost 0b0111)) ∧
    (OutOfRange (baseOffsetSum s base off) →
      exec (.str sr base off) s =
        .next { s with runState := .faulted (.addressOutOfRange (baseOffsetSum s base off)) })) ∧
  (∀ (sr base : Reg) (off : BitVec 6),
    decode (0b0111#4 ++ sr.bits ++ base.bits ++ off) = .ok (.str sr base off))

/-- R92: LEA writes the address A + 1 + offset and the condition codes, with no memory access, or
faults. -/
def Obligations.LeaWritesAddressAndFlags : Prop :=
  (∀ dr (off : BitVec 9) s, Fetchable s →
    (∀ a : Word, (a.toNat : Int) = pcRelativeSum s off →
      ∃ t, exec (.lea dr off) s = .next t ∧
        ResultWithFlags s t dr a (Config.baseCost 0b1110)) ∧
    (OutOfRange (pcRelativeSum s off) →
      exec (.lea dr off) s =
        .next { s with runState := .faulted (.addressOutOfRange (pcRelativeSum s off)) })) ∧
  (∀ (dr : Reg) (off : BitVec 9), decode (0b1110#4 ++ dr.bits ++ off) = .ok (.lea dr off))

/-! ## TRAP -/

/-- R95: TRAP x20 reads one character into R0 and advances the cursor, at cost 28 beside the base cost;
past the end it raises InputExhausted with nothing changed. -/
def Obligations.TrapInputReadsOneCharacter : Prop :=
  (∀ s c, Fetchable s → s.input[s.cursor]? = some c →
    ∃ t, exec (.trap 0x20) s = .next t ∧ TrapCommon s t 28 ∧
      t.reg .r0 = c.setWidth 16 ∧ (∀ q, q ≠ .r0 → q ≠ .r7 → t.reg q = s.reg q) ∧
      t.cursor = s.cursor + 1 ∧ t.output = s.output) ∧
  (∀ s, Fetchable s → s.input.length ≤ s.cursor →
    exec (.trap 0x20) s = .next { s with runState := .faulted .inputExhausted })

/-- R96: TRAP x21 appends the low eight bits of R0 to Out, at cost 36 beside the base cost. -/
def Obligations.TrapOutputAppendsCharacter : Prop :=
  ∀ s, Fetchable s →
    ∃ t, exec (.trap 0x21) s = .next t ∧ TrapCommon s t 36 ∧
      (∀ q, q ≠ .r7 → t.reg q = s.reg q) ∧
      t.output = s.output ++ [(s.reg .r0).setWidth 8] ∧ t.cursor = s.cursor

/-- R97: TRAP x22 appends the low eight bits of each word from R0 up to the first zero word, at cost
40 + 27 × n beside the base cost; with no zero word up to 0xFFFF it raises AddressOutOfRange and
nothing is appended. -/
def Obligations.TrapStringAppendsUntilZero : Prop :=
  (∀ s n, Fetchable s → (s.reg .r0).toNat + n ≤ 0xFFFF →
    (∀ i, i < n → s.mem.read ((s.reg .r0).toNat + i) ≠ 0) →
    s.mem.read ((s.reg .r0).toNat + n) = 0 →
    ∃ t, exec (.trap 0x22) s = .next t ∧ TrapCommon s t (40 + 27 * n) ∧
      (∀ q, q ≠ .r7 → t.reg q = s.reg q) ∧
      t.output = s.output ++
        (List.range n).map (fun i => (s.mem.read ((s.reg .r0).toNat + i)).setWidth 8) ∧
      t.cursor = s.cursor) ∧
  (∀ s, Fetchable s →
    (∀ a, (s.reg .r0).toNat ≤ a → a ≤ 0xFFFF → s.mem.read a ≠ 0) →
    exec (.trap 0x22) s = .next { s with runState := .faulted (.addressOutOfRange 0x10000) })

/-- R98: every vector but 0x20, 0x21 and 0x22 raises UnsupportedTrap, with R7, the pc and all other
state as before the TRAP. -/
def Obligations.UnsupportedTrapLeavesState : Prop :=
  ∀ s (v : BitVec 8), Fetchable s → v ≠ 0x20 → v ≠ 0x21 → v ≠ 0x22 →
    exec (.trap v) s = .next { s with runState := .faulted (.unsupportedTrap v) }

/-- R93, R104: a TRAP that completes is one of the three vectors; it saves A + 1 in R7, goes on at
A + 1, and touches neither the status register nor memory. Its word decodes to it (but for the halt
word), and nonzero w[11:8] is Illegal. -/
def Obligations.TrapSavesReturnAddress : Prop :=
  (∀ s t (v : BitVec 8), s.runState = .running → exec (.trap v) s = .next t →
    t.runState = .running →
    (v = 0x20 ∨ v = 0x21 ∨ v = 0x22) ∧ ∃ tc, TrapCommon s t tc) ∧
  (∀ v : BitVec 8, v ≠ 0x25 → decode (0b11110000#8 ++ v) = .ok (.trap v)) ∧
  (∀ w : Word, w.extractLsb' 12 4 = 0b1111#4 → w.extractLsb' 8 4 ≠ 0 →
    decode w = .error (.unusedBits w))

/-! ## Stops and faults -/

/-- R63: at the halt word the run stops with Halted, the pc left there, nothing else changed and no cost
added, whatever TRAP would do. -/
def Obligations.HaltWordStopsRun : Prop :=
  (∀ s, exec .halt s = .next { s with runState := .halted }) ∧
  (∀ s, AboutToFetch s → s.mem.read s.pc.toNat = 0xF025#16 →
    step s = .next { s with runState := .halted })

/-- R56: every word of opcode 1101 raises IllegalInstruction, recording the word, with no state
change. -/
def Obligations.ReservedOpcodeIsIllegal : Prop :=
  (∀ low s, Fetchable s → exec (.reserved low) s =
    .next { s with runState := .faulted (.illegalInstruction (0b1101#4 ++ low)) }) ∧
  (∀ s (w : Word), AboutToFetch s → Fetchable s → s.mem.read s.pc.toNat = w →
    w.extractLsb' 12 4 = 0b1101#4 →
    step s = .next { s with runState := .faulted (.illegalInstruction w) })

/-- R62: with pc in bp the run stops with Breakpointed before the fetch, whatever word is there; a Run
started on a breakpoint stops at once with cost 0; no step and no host operation removes a
breakpoint. -/
def Obligations.BreakpointStopsRun : Prop :=
  (∀ s, s.runState = .running → s.pc ∈ s.bp →
    step s = .next { s with runState := .breakpointed }) ∧
  (∀ s start t r, start ≤ 0xFFFF → BitVec.ofNat 16 start ∈ s.bp →
    hostCall (.run start) s = .next (t, r) →
    step t = .next { t with runState := .breakpointed } ∧ t.cost = 0) ∧
  (∀ s t, step s = .next t → t.bp = s.bp) ∧
  (∀ c s t r, hostCall c s = .next (t, r) → ∀ a, a ∈ s.bp → a ∈ t.bp)

/-- R22: the pc does not wrap. At 0xFFFF the increment faults whatever the instruction; a relative
target of a taken BR or of a JSR outside the space faults; the pc stays at the instruction. -/
def Obligations.PcDoesNotWrap : Prop :=
  (∀ s, AboutToFetch s → s.pc = 0xFFFF#16 → s.mem.read 0xFFFF ≠ 0xF025#16 →
    step s = .next { s with runState := .faulted (.addressOutOfRange 0x10000) }) ∧
  (∀ s i, i ≠ .halt → s.pc = 0xFFFF#16 →
    exec i s = .next { s with runState := .faulted (.addressOutOfRange 0x10000) }) ∧
  (∀ n z p s (off : BitVec 9), Fetchable s →
    ((n = true ∧ s.psr.getLsbD 2 = true) ∨ (z = true ∧ s.psr.getLsbD 1 = true) ∨
      (p = true ∧ s.psr.getLsbD 0 = true)) →
    OutOfRange (pcRelativeSum s off) → exec (.br n z p off) s =
      .next { s with runState := .faulted (.addressOutOfRange (pcRelativeSum s off)) }) ∧
  (∀ s (off : BitVec 11), Fetchable s → OutOfRange (pcRelativeSum s off) → exec (.jsr off) s =
    .next { s with runState := .faulted (.addressOutOfRange (pcRelativeSum s off)) })

/-- R57: in each format with unused bits, a word whose unused bits differ from the pattern is Illegal
under STRICT_DECODE and decodes as if they did not otherwise. -/
def Obligations.UnusedBitsAreStrict : Prop :=
  (∀ (dr sr1 sr2 : Reg) (u : BitVec 2), ∀ w : Word,
    w = 0b0001#4 ++ dr.bits ++ sr1.bits ++ 0b0#1 ++ u ++ sr2.bits →
    decodeFields false w = .ok (.addReg dr sr1 sr2) ∧
    decodeFields true w = if u = 0 then .ok (.addReg dr sr1 sr2) else .error (.unusedBits w)) ∧
  (∀ (dr sr1 sr2 : Reg) (u : BitVec 2), ∀ w : Word,
    w = 0b0101#4 ++ dr.bits ++ sr1.bits ++ 0b0#1 ++ u ++ sr2.bits →
    decodeFields false w = .ok (.andReg dr sr1 sr2) ∧
    decodeFields true w = if u = 0 then .ok (.andReg dr sr1 sr2) else .error (.unusedBits w)) ∧
  (∀ (base : Reg) (u : BitVec 2) (u' : BitVec 6), ∀ w : Word,
    w = 0b0100#4 ++ 0b0#1 ++ u ++ base.bits ++ u' →
    decodeFields false w = .ok (.jsrr base) ∧
    decodeFields true w = if u = 0 ∧ u' = 0 then .ok (.jsrr base) else .error (.unusedBits w)) ∧
  (∀ (u : BitVec 12), ∀ w : Word, w = 0b1000#4 ++ u →
    decodeFields false w = .ok .rti ∧
    decodeFields true w = if u = 0 then .ok .rti else .error (.unusedBits w)) ∧
  (∀ (dr sr : Reg) (u : BitVec 6), ∀ w : Word, w = 0b1001#4 ++ dr.bits ++ sr.bits ++ u →
    decodeFields false w = .ok (.not dr sr) ∧
    decodeFields true w = if u = 0b111111#6 then .ok (.not dr sr) else .error (.unusedBits w)) ∧
  (∀ (base : Reg) (u : BitVec 3) (u' : BitVec 6), ∀ w : Word,
    w = 0b1100#4 ++ u ++ base.bits ++ u' →
    decodeFields false w = .ok (.jmp base) ∧
    decodeFields true w = if u = 0 ∧ u' = 0 then .ok (.jmp base) else .error (.unusedBits w)) ∧
  (∀ (u : BitVec 4) (v : BitVec 8), ∀ w : Word, w = 0b1111#4 ++ u ++ v →
    decodeFields false w = .ok (.trap v) ∧
    decodeFields true w = if u = 0 then .ok (.trap v) else .error (.unusedBits w)) ∧
  (∀ w : Word, decode w = if w = 0xF025#16 then .ok .halt else decodeFields true w)

/-- R100: faults are precise. When a step of a run leaves it faulted, every field but runState is as
before the fetch: no cost, no pc increment, no R7, no store, no cursor, no output. -/
def Obligations.FaultsArePrecise : Prop :=
  ∀ s t k, s.runState = .running → step s = .next t → t.runState = .faulted k →
    t = { s with runState := .faulted k }

/-- R102: the order in which one iteration reports: breakpoint, halt, the fetch increment, an Illegal
word, then the instruction's own faults (RTI's privilege before its stack; TRAP's vector first; the
console services one kind each). -/
def Obligations.EventsHaveOneOrder : Prop :=
  (∀ s, s.runState = .running →
    step s =
      if s.pc ∈ s.bp then .next { s with runState := .breakpointed }
      else if s.mem.read s.pc.toNat = 0xF025#16 then .next { s with runState := .halted }
      else if s.pc = 0xFFFF#16 then
        .next { s with runState := .faulted (.addressOutOfRange 0x10000) }
      else
        match decodeFields true (s.mem.read s.pc.toNat) with
        | .error _ =>
          .next { s with runState := .faulted (.illegalInstruction (s.mem.read s.pc.toNat)) }
        | .ok i => exec i s) ∧
  (∀ s, Fetchable s → s.psr.getLsbD 15 = true →
    exec .rti s = .next { s with runState := .faulted .privilegeFault }) ∧
  (∀ s t k (v : BitVec 8), Fetchable s → exec (.trap v) s = .next t → s.runState = .running →
    t.runState = .faulted k →
    k = if v = 0x20 then .inputExhausted
      else if v = 0x22 then .addressOutOfRange 0x10000 else .unsupportedTrap v)

/-- R99: the five kinds with their codes, and for each what raises it in a step and what it records. -/
def Obligations.FaultKindsHaveTheirCauses : Prop :=
  (FaultKind.code .privilegeFault = 1 ∧ (∀ v, FaultKind.code (.unsupportedTrap v) = 2) ∧
    FaultKind.code .inputExhausted = 3 ∧ (∀ a, FaultKind.code (.addressOutOfRange a) = 4) ∧
    (∀ w, FaultKind.code (.illegalInstruction w) = 5)) ∧
  (∀ s t k, s.runState = .running → step s = .next t → t.runState = .faulted k → t.pc = s.pc ∧
    match k with
    | .privilegeFault => decode (s.mem.read s.pc.toNat) = .ok .rti ∧ s.psr.getLsbD 15 = true
    | .unsupportedTrap v => decode (s.mem.read s.pc.toNat) = .ok (.trap v) ∧
        v ≠ 0x20 ∧ v ≠ 0x21 ∧ v ≠ 0x22
    | .inputExhausted => decode (s.mem.read s.pc.toNat) = .ok (.trap 0x20) ∧
        s.input.length ≤ s.cursor
    | .addressOutOfRange a => OutOfRange a ∧
        (s.pc = 0xFFFF#16 ∧ a = 0x10000 ∨ ∃ i, decode (s.mem.read s.pc.toNat) = .ok i ∧
          match i with
          | .br n z p off => a = pcRelativeSum s off ∧
              ((n = true ∧ s.psr.getLsbD 2 = true) ∨ (z = true ∧ s.psr.getLsbD 1 = true) ∨
                (p = true ∧ s.psr.getLsbD 0 = true))
          | .jsr off => a = pcRelativeSum s off
          | .ld _ off => a = pcRelativeSum s off
          | .ldi _ off => a = pcRelativeSum s off
          | .st _ off => a = pcRelativeSum s off
          | .sti _ off => a = pcRelativeSum s off
          | .lea _ off => a = pcRelativeSum s off
          | .ldr _ base off => a = baseOffsetSum s base off
          | .str _ base off => a = baseOffsetSum s base off
          | .rti => a = 0x10000 ∧ s.psr.getLsbD 15 = false ∧ 0xFFFE ≤ (s.reg .r6).toNat
          | .trap v => v = 0x22 ∧ a = 0x10000 ∧
              ∀ b, (s.reg .r0).toNat ≤ b → b ≤ 0xFFFF → s.mem.read b ≠ 0
          | _ => False)
    | .illegalInstruction w => w = s.mem.read s.pc.toNat ∧
        (decode w = .error (.unusedBits w) ∨ w.extractLsb' 12 4 = 0b1101#4))

/-! ## Privilege -/

/-- R25: M is consulted only by RTI, which runs when M = 0 and raises PrivilegeFault when M = 1, and
only RTI changes it, to the popped word's bit 15. -/
def Obligations.ModeBitBelongsToRti : Prop :=
  (∀ i s t, i ≠ .rti → exec i s = .next t → t.psr.getLsbD 15 = s.psr.getLsbD 15) ∧
  (∀ i s t m, i ≠ .rti → exec i s = .next t →
    exec i { s with psr := withModeBit m s.psr } = .next { t with psr := withModeBit m t.psr }) ∧
  (∀ s, Fetchable s → s.psr.getLsbD 15 = true →
    exec .rti s = .next { s with runState := .faulted .privilegeFault }) ∧
  (∀ s, Fetchable s → s.psr.getLsbD 15 = false → (s.reg .r6).toNat ≤ 0xFFFD →
    ∃ t, exec .rti s = .next t ∧ t.runState = s.runState ∧
      t.psr.getLsbD 15 = (s.mem.read ((s.reg .r6).toNat + 1)).getLsbD 15)

/-! ## Cost -/

/-- R70: a completed instruction adds its opcode's base cost, TRAP its service's cost beside it
(28, 36, 40 + 27 × characters written); one that faults or stops adds nothing. -/
def Obligations.CostIsBaseCostPlusTrapCost : Prop :=
  ∀ i s t, s.runState = .running → exec i s = .next t →
    (t.runState = .running → t.cost = s.cost + (Config.baseCost i.opcode +
      match i with
      | .trap v => if v = 0x20 then 28 else if v = 0x21 then 36
          else 40 + 27 * (t.output.length - s.output.length)
      | _ => 0)) ∧
    (t.runState ≠ .running → t.cost = s.cost)

/-- R118's "no instruction's effect depends on a cost": from a state whose cost is larger by d, a step
does the same and its cost is larger by d. -/
def Obligations.CostIsNeverRead : Prop :=
  ∀ s t d, step s = .next t →
    step { s with cost := s.cost + d } = .next { t with cost := t.cost + d }

/-! ## Memory, registers and encoding -/

/-- W5's round trip (R45, R88): a word that ST stores is what the next instruction, an LD of the same
address, loads, with the condition codes of its sign. -/
def Obligations.StThenLdYieldsStoredWord : Prop :=
  ∀ sr dr (off off' : BitVec 9) s t, exec (.st sr off) s = .next t → s.runState = .running →
    t.runState = .running → Fetchable t → pcRelativeSum t off' = pcRelativeSum s off →
    ∃ u, exec (.ld dr off') t = .next u ∧
      ResultWithFlags t u dr (s.reg sr) (Config.baseCost 0b0010)

/-- R37's "memory is mutated only by ST, STI, STR": no other instruction changes a word. -/
def Obligations.OnlyStoresWriteMemory : Prop :=
  ∀ i s t, writesMemory i = false → exec i s = .next t → t.mem = s.mem

/-- R47: a store to the next instruction's address is what the next step runs. -/
def Obligations.StoreIsSeenByNextFetch : Prop :=
  (∀ sr (off : BitVec 9) s t j, s.runState = .running → exec (.st sr off) s = .next t →
    t.runState = .running → (t.pc.toNat : Int) = pcRelativeSum s off → t.pc ∉ t.bp →
    decode (s.reg sr) = .ok j → step t = exec j t) ∧
  (∀ sr (off : BitVec 9) (p : Word) s t j, s.runState = .running →
    exec (.sti sr off) s = .next t → t.runState = .running →
    (p.toNat : Int) = pcRelativeSum s off → t.pc = s.mem.read p.toNat → t.pc ∉ t.bp →
    decode (s.reg sr) = .ok j → step t = exec j t) ∧
  (∀ sr base (off : BitVec 6) s t j, s.runState = .running → exec (.str sr base off) s = .next t →
    t.runState = .running → (t.pc.toNat : Int) = baseOffsetSum s base off → t.pc ∉ t.bp →
    decode (s.reg sr) = .ok j → step t = exec j t)

/-- R19's last column: an instruction writes no register but the ones the table names. -/
def Obligations.OnlyNamedRegistersAreWritten : Prop :=
  ∀ i s t, exec i s = .next t → ∀ r, r ∉ destinations i → t.reg r = s.reg r

/-- R11: sign extension is the field's unsigned value, less 2^N when its top bit is 1, at every width N
of at least 1; the result is in -2^(N-1) .. 2^(N-1) - 1; zero extension leaves the value unchanged. -/
def Obligations.SignExtensionByTopBit : Prop :=
  (∀ (n : Nat) (f : BitVec n), 0 < n →
    sext f = (if f.getLsbD (n - 1) = true then (f.toNat : Int) + (-1) * 2 ^ n else (f.toNat : Int)) ∧
    -(2 ^ (n - 1) : Int) ≤ sext f ∧ sext f ≤ 2 ^ (n - 1) - 1) ∧
  (∀ c : CharCode, (zext16 c).toNat = c.toNat)

/-- Every well-formed instruction's word decodes to it, with every operand, whatever STRICT_DECODE is
(R52 and R55 agree). -/
def Obligations.DecodeOfEncode : Prop :=
  ∀ (i : Instr) (strict : Bool), i.wellFormed = true → decodeUnder strict (encode i) = .ok i

/-- Every word that decodes is the word of the instruction it decodes to, and that instruction is
well-formed: each word has one meaning and no bit of it is dropped. -/
def Obligations.EncodeOfDecode : Prop :=
  ∀ (w : Word) (i : Instr), decode w = .ok i → encode i = w ∧ i.wellFormed = true

/-- One word of each family, written out from the spec's formats and test vectors, decodes to its
instruction. -/
def Obligations.SampleWordsDecode : Prop :=
  decode 0x1283#16 = .ok (.addReg .r1 .r2 .r3) ∧
  decode 0x12BD#16 = .ok (.addImm .r1 .r2 0b11101#5) ∧
  decode 0x98FF#16 = .ok (.not .r4 .r3) ∧
  decode 0x05FD#16 = .ok (.br false true false 0b111111101#9) ∧
  decode 0x4804#16 = .ok (.jsr 4#11) ∧
  decode 0x4080#16 = .ok (.jsrr .r2) ∧
  decode 0xC1C0#16 = .ok (.jmp .r7) ∧
  decode 0x8000#16 = .ok .rti ∧
  decode 0xA604#16 = .ok (.ldi .r3 4#9) ∧
  decode 0x7441#16 = .ok (.str .r2 .r1 1#6) ∧
  decode 0xF022#16 = .ok (.trap 0x22#8) ∧
  decode 0xF025#16 = .ok .halt ∧
  decode 0xD000#16 = .ok (.reserved 0#12) ∧
  decode 0x9080#16 = .error (.unusedBits 0x9080#16)

/-! ## The step and the run -/

/-- With a run in progress and no breakpoint at pc, a step is exec of what the word at pc decodes to;
and a word that decodes to nothing raises IllegalInstruction (R66, R69). -/
def Obligations.StepRunsDecodedInstruction : Prop :=
  (∀ s i, AboutToFetch s → decode (s.mem.read s.pc.toNat) = .ok i → step s = exec i s) ∧
  (∀ s e, AboutToFetch s → Fetchable s → decode (s.mem.read s.pc.toNat) = .error e →
    step s = .next { s with runState := .faulted (.illegalInstruction (s.mem.read s.pc.toNat)) })

/-- No instruction is refused and none leaves the machine without a next state, in any state. -/
def Obligations.EveryInstructionHasANextState : Prop :=
  ∀ i s, ∃ t, exec i s = .next t ∧
    (t.runState = s.runState ∨ t.runState = .halted ∨ ∃ k, t.runState = .faulted k)

/-- A step keeps the invariant: memory and the breakpoint set canonical, the cursor within the input. -/
def Obligations.StepKeepsInv : Prop :=
  ∀ s t, s.Inv → step s = .next t → t.Inv

/-- The power-on state meets the invariant. -/
def Obligations.ResetMeetsInv : Prop := State.reset.Inv

/-- A host operation keeps the invariant too. -/
def Obligations.HostCallKeepsInv : Prop :=
  ∀ c s t r, s.Inv → hostCall c s = .next (t, r) → t.Inv

/-- R113's decided values: no breakpoints, empty In with cursor 0, empty Out, cost 0, Idle. (The
unspecified ones, x, psr, pc and mem, are the model's choice, log entries 1 to 4, and not stated.) -/
def Obligations.ResetHasDecidedValues : Prop :=
  State.reset.bp = [] ∧ State.reset.input = [] ∧ State.reset.cursor = 0 ∧
  State.reset.output = [] ∧ State.reset.cost = 0 ∧ State.reset.runState = .idle

/-- R72: the run states. Without a run in progress nothing is stepped (the model's stuck state, log
entry 15); a step of a run leaves it Running, or Halted exactly at the halt word, Breakpointed exactly
at a breakpoint, or Faulted, each terminal state with the pc where it was. -/
def Obligations.RunStateTransitions : Prop :=
  (∀ s, s.runState ≠ .running → step s = .fault .noRunInProgress) ∧
  (∀ s t, s.runState = .running → step s = .next t →
    t.runState ≠ .idle ∧
    (t.runState = .breakpointed ↔ s.pc ∈ s.bp) ∧
    (t.runState = .halted ↔ s.pc ∉ s.bp ∧ s.mem.read s.pc.toNat = 0xF025#16) ∧
    (t.runState ≠ .running → t.pc = s.pc))

/-- R26, R27, R28 along a step: In never changes, and the cursor only by a TRAP x20, by one; Out only
grows, and only by a TRAP x21 or x22; the breakpoint set never changes. -/
def Obligations.ConsoleChangesOnlyByTraps : Prop :=
  ∀ s t, step s = .next t →
    t.input = s.input ∧ t.bp = s.bp ∧
    (t.cursor = s.cursor ∨
      (t.cursor = s.cursor + 1 ∧ decode (s.mem.read s.pc.toNat) = .ok (.trap 0x20))) ∧
    ∃ written, t.output = s.output ++ written ∧
      (written ≠ [] → decode (s.mem.read s.pc.toNat) = .ok (.trap 0x21) ∨
        decode (s.mem.read s.pc.toNat) = .ok (.trap 0x22))

/-- R65 on R80's own example: a taken branch to itself runs for ever, its cost growing, and the run
reaches no terminal state. -/
def Obligations.BranchToItselfNeverEnds : Prop :=
  ∀ s n, AboutToFetch s → Fetchable s → s.mem.read s.pc.toNat = 0x0FFF#16 →
    s.psr.extractLsb' 0 3 ≠ 0 →
    runFor n s = { s with cost := s.cost + n * Config.baseCost 0b0000 } ∧ ¬ ∃ t, RunEnds s t

/-- A run ends at most once: two terminal states reached from one state are the same state. -/
def Obligations.RunEndIsUnique : Prop :=
  ∀ s t u, RunEnds s t → RunEnds s u → t = u

/-! ## The host interface -/

/-- R114: Initialize loads the words, sets pc, resets the cursor, clears Out and changes nothing else;
one that would pass the top of memory is rejected whole, with no state change. (Words above 0xFFFF:
InitializeRefusesWideWords.) -/
def Obligations.InitializeLoadsWords : Prop :=
  (∀ s start (ws : List Nat), s.runState ≠ .running → (∀ w ∈ ws, w < 0x10000) →
    start ≤ 0xFFFF → start + ws.length ≤ 0x10000 →
    ∃ t, hostCall (.initializeCore start ws) s = .next (t, .ok) ∧
      (∀ k (h : k < ws.length), (t.mem.read (start + k)).toNat = ws[k]) ∧
      (∀ a, a < start ∨ start + ws.length ≤ a → t.mem.read a = s.mem.read a) ∧
      t.pc.toNat = start ∧ t.cursor = 0 ∧ t.output = [] ∧
      t.x = s.x ∧ t.psr = s.psr ∧ t.bp = s.bp ∧ t.input = s.input ∧ t.cost = s.cost ∧
      t.runState = s.runState) ∧
  (∀ s start (ws : List Nat), s.runState ≠ .running → (∀ w ∈ ws, w < 0x10000) →
    ¬ (start ≤ 0xFFFF ∧ start + ws.length ≤ 0x10000) →
    hostCall (.initializeCore start ws) s = .next (s, .addressOutOfRange))

/-- D3, R34: Initialize with an element above 0xFFFF is refused, with no transition, whatever the start.
That the refusal comes first where the range does not fit either is the model's (log entry 20). -/
def Obligations.InitializeRefusesWideWords : Prop :=
  ∀ s start (ws : List Nat), s.runState ≠ .running → (∃ w ∈ ws, 0x10000 ≤ w) →
    hostCall (.initializeCore start ws) s = .refused .hostArgumentOutOfRange ∧
    ∀ t r, ¬ HostReturns (.initializeCore start ws) s t r

/-- R61 before its loop: Run sets pc to its argument, cost to 0, Out to empty and Running, and does not
touch x, psr, mem, bp or In, and has returned nothing yet; an argument out of range is refused. -/
def Obligations.RunStartsAtItsArgument : Prop :=
  (∀ s start, s.runState ≠ .running → start ≤ 0xFFFF →
    ∃ t, hostCall (.run start) s = .next (t, .inProgress) ∧
      t.pc.toNat = start ∧ t.cost = 0 ∧ t.output = [] ∧ t.runState = .running ∧
      t.x = s.x ∧ t.psr = s.psr ∧ t.mem = s.mem ∧ t.bp = s.bp ∧ t.input = s.input ∧
      t.cursor = s.cursor) ∧
  (∀ s start, s.runState ≠ .running → 0xFFFF < start →
    hostCall (.run start) s = .refused .hostArgumentOutOfRange)

/-- R29, R34, R73: Run returns exactly when its loop has reached a terminal state, and what it returns
is the accumulated cost and that terminal state; it returns one result at most. At a breakpoint or the
halt word it returns cost 0; at a faulting first instruction cost 0 and the fault. A refused Run returns
nothing. -/
def Obligations.RunReturnsCostAndTerminalState : Prop :=
  (∀ s u start, hostCall (.run start) s = .next (u, .inProgress) →
    ∀ t r, HostReturns (.run start) s t r ↔ RunEnds u t ∧ r = .runResult t.cost t.runState) ∧
  (∀ s start t t' r r', HostReturns (.run start) s t r → HostReturns (.run start) s t' r' →
    t = t' ∧ r = r') ∧
  (∀ s u start, hostCall (.run start) s = .next (u, .inProgress) →
    (u.pc ∈ u.bp → HostReturns (.run start) s { u with runState := .breakpointed }
      (.runResult 0 .breakpointed)) ∧
    (u.pc ∉ u.bp → u.mem.read u.pc.toNat = 0xF025#16 →
      HostReturns (.run start) s { u with runState := .halted } (.runResult 0 .halted)) ∧
    (∀ k, step u = .next { u with runState := .faulted k } →
      HostReturns (.run start) s { u with runState := .faulted k } (.runResult 0 (.faulted k)))) ∧
  (∀ s start t r, (s.runState = .running ∨ 0xFFFF < start) → ¬ HostReturns (.run start) s t r)

/-- R28: AddBreakpoint adds one address and nothing else, is idempotent, and refuses an address out of
range (D30). -/
def Obligations.AddBreakpointAddsOneAddress : Prop :=
  (∀ s a, s.runState ≠ .running → a ≤ 0xFFFF →
    ∃ t, hostCall (.addBreakpoint a) s = .next (t, .ok) ∧
      (∀ b : Word, b ∈ t.bp ↔ b.toNat = a ∨ b ∈ s.bp) ∧ t = { s with bp := t.bp }) ∧
  (∀ s t r a, s.Inv → hostCall (.addBreakpoint a) s = .next (t, r) →
    hostCall (.addBreakpoint a) t = .next (t, r)) ∧
  (∀ s a, s.runState ≠ .running → 0xFFFF < a →
    hostCall (.addBreakpoint a) s = .refused .hostArgumentOutOfRange)

/-- R26: SetInput replaces In and sets the cursor to 0, and nothing else; a code out of range is
refused (D29). -/
def Obligations.SetInputReplacesSequence : Prop :=
  (∀ s (cs : List Nat), s.runState ≠ .running → (∀ c ∈ cs, c < 256) →
    ∃ t, hostCall (.setInput cs) s = .next (t, .ok) ∧
      t.input.map BitVec.toNat = cs ∧ t.cursor = 0 ∧
      t = { s with input := t.input, cursor := 0 }) ∧
  (∀ s (cs : List Nat), s.runState ≠ .running → (∃ c ∈ cs, 256 ≤ c) →
    hostCall (.setInput cs) s = .refused .hostArgumentOutOfRange)

/-- R34: an operation other than Run returns at once, with what its transaction answers, and in one
way only. -/
def Obligations.OtherOperationsReturnAtOnce : Prop :=
  ∀ c s t r, (∀ start, c ≠ .run start) →
    (HostReturns c s t r ↔ hostCall c s = .next (t, r))

/-- R34, R35: GetOutput and Inspect read the state and change nothing, and every host operation is
refused while a run is in progress. -/
def Obligations.HostReadsAndSerialization : Prop :=
  (∀ s, s.runState ≠ .running → hostCall .getOutput s = .next (s, .output s.output)) ∧
  (∀ s, s.runState ≠ .running →
    ∃ v, hostCall .inspect s = .next (s, .inspection v) ∧ v.x = s.x ∧ v.pc = s.pc ∧
      v.psr = s.psr ∧ v.mem = s.mem ∧ v.runState = s.runState ∧ v.cursor = s.cursor) ∧
  (∀ c s, s.runState = .running → hostCall c s = .refused .hostCallDuringRun)
end

