-- ==== Sys2Proof/Laws/State.lean ====
section
/-! SUPPORT. One lemma per field per update of State, true by definition, and the register file read
after each update. -/

namespace Sys2Proof.Machine

variable (s : State)

/-! ## setReg -/

@[simp] theorem State.setReg_x (r : Reg) (v : Word) : (s.setReg r v).x = s.x.set r v := rfl
@[simp] theorem State.setReg_pc (r : Reg) (v : Word) : (s.setReg r v).pc = s.pc := rfl
@[simp] theorem State.setReg_psr (r : Reg) (v : Word) : (s.setReg r v).psr = s.psr := rfl
@[simp] theorem State.setReg_mem (r : Reg) (v : Word) : (s.setReg r v).mem = s.mem := rfl
@[simp] theorem State.setReg_bp (r : Reg) (v : Word) : (s.setReg r v).bp = s.bp := rfl
@[simp] theorem State.setReg_input (r : Reg) (v : Word) : (s.setReg r v).input = s.input := rfl
@[simp] theorem State.setReg_cursor (r : Reg) (v : Word) : (s.setReg r v).cursor = s.cursor := rfl
@[simp] theorem State.setReg_output (r : Reg) (v : Word) : (s.setReg r v).output = s.output := rfl
@[simp] theorem State.setReg_cost (r : Reg) (v : Word) : (s.setReg r v).cost = s.cost := rfl
@[simp] theorem State.setReg_runState (r : Reg) (v : Word) : (s.setReg r v).runState = s.runState := rfl
@[simp] theorem State.setReg_memRead (r : Reg) (v : Word) (p : Word) : (s.setReg r v).memRead p = s.memRead p := rfl

/-! ## setPc -/

@[simp] theorem State.setPc_x (v : Word) : (s.setPc v).x = s.x := rfl
@[simp] theorem State.setPc_pc (v : Word) : (s.setPc v).pc = v := rfl
@[simp] theorem State.setPc_psr (v : Word) : (s.setPc v).psr = s.psr := rfl
@[simp] theorem State.setPc_mem (v : Word) : (s.setPc v).mem = s.mem := rfl
@[simp] theorem State.setPc_bp (v : Word) : (s.setPc v).bp = s.bp := rfl
@[simp] theorem State.setPc_input (v : Word) : (s.setPc v).input = s.input := rfl
@[simp] theorem State.setPc_cursor (v : Word) : (s.setPc v).cursor = s.cursor := rfl
@[simp] theorem State.setPc_output (v : Word) : (s.setPc v).output = s.output := rfl
@[simp] theorem State.setPc_cost (v : Word) : (s.setPc v).cost = s.cost := rfl
@[simp] theorem State.setPc_runState (v : Word) : (s.setPc v).runState = s.runState := rfl
@[simp] theorem State.setPc_reg (v : Word) (q : Reg) : (s.setPc v).reg q = s.reg q := rfl
@[simp] theorem State.setPc_memRead (v : Word) (p : Word) : (s.setPc v).memRead p = s.memRead p := rfl

/-! ## setPsr -/

@[simp] theorem State.setPsr_x (v : Word) : (s.setPsr v).x = s.x := rfl
@[simp] theorem State.setPsr_pc (v : Word) : (s.setPsr v).pc = s.pc := rfl
@[simp] theorem State.setPsr_psr (v : Word) : (s.setPsr v).psr = v := rfl
@[simp] theorem State.setPsr_mem (v : Word) : (s.setPsr v).mem = s.mem := rfl
@[simp] theorem State.setPsr_bp (v : Word) : (s.setPsr v).bp = s.bp := rfl
@[simp] theorem State.setPsr_input (v : Word) : (s.setPsr v).input = s.input := rfl
@[simp] theorem State.setPsr_cursor (v : Word) : (s.setPsr v).cursor = s.cursor := rfl
@[simp] theorem State.setPsr_output (v : Word) : (s.setPsr v).output = s.output := rfl
@[simp] theorem State.setPsr_cost (v : Word) : (s.setPsr v).cost = s.cost := rfl
@[simp] theorem State.setPsr_runState (v : Word) : (s.setPsr v).runState = s.runState := rfl
@[simp] theorem State.setPsr_reg (v : Word) (q : Reg) : (s.setPsr v).reg q = s.reg q := rfl
@[simp] theorem State.setPsr_memRead (v : Word) (p : Word) : (s.setPsr v).memRead p = s.memRead p := rfl

/-! ## setRegCC -/

@[simp] theorem State.setRegCC_x (r : Reg) (v : Word) : (s.setRegCC r v).x = s.x.set r v := rfl
@[simp] theorem State.setRegCC_pc (r : Reg) (v : Word) : (s.setRegCC r v).pc = s.pc := rfl
@[simp] theorem State.setRegCC_psr (r : Reg) (v : Word) : (s.setRegCC r v).psr = setCC v s.psr := rfl
@[simp] theorem State.setRegCC_mem (r : Reg) (v : Word) : (s.setRegCC r v).mem = s.mem := rfl
@[simp] theorem State.setRegCC_bp (r : Reg) (v : Word) : (s.setRegCC r v).bp = s.bp := rfl
@[simp] theorem State.setRegCC_input (r : Reg) (v : Word) : (s.setRegCC r v).input = s.input := rfl
@[simp] theorem State.setRegCC_cursor (r : Reg) (v : Word) : (s.setRegCC r v).cursor = s.cursor := rfl
@[simp] theorem State.setRegCC_output (r : Reg) (v : Word) : (s.setRegCC r v).output = s.output := rfl
@[simp] theorem State.setRegCC_cost (r : Reg) (v : Word) : (s.setRegCC r v).cost = s.cost := rfl
@[simp] theorem State.setRegCC_runState (r : Reg) (v : Word) : (s.setRegCC r v).runState = s.runState := rfl
@[simp] theorem State.setRegCC_memRead (r : Reg) (v : Word) (p : Word) : (s.setRegCC r v).memRead p = s.memRead p := rfl

/-! ## memWrite -/

@[simp] theorem State.memWrite_x (a v : Word) : (s.memWrite a v).x = s.x := rfl
@[simp] theorem State.memWrite_pc (a v : Word) : (s.memWrite a v).pc = s.pc := rfl
@[simp] theorem State.memWrite_psr (a v : Word) : (s.memWrite a v).psr = s.psr := rfl
@[simp] theorem State.memWrite_mem (a v : Word) : (s.memWrite a v).mem = s.mem.write a.toNat v := rfl
@[simp] theorem State.memWrite_bp (a v : Word) : (s.memWrite a v).bp = s.bp := rfl
@[simp] theorem State.memWrite_input (a v : Word) : (s.memWrite a v).input = s.input := rfl
@[simp] theorem State.memWrite_cursor (a v : Word) : (s.memWrite a v).cursor = s.cursor := rfl
@[simp] theorem State.memWrite_output (a v : Word) : (s.memWrite a v).output = s.output := rfl
@[simp] theorem State.memWrite_cost (a v : Word) : (s.memWrite a v).cost = s.cost := rfl
@[simp] theorem State.memWrite_runState (a v : Word) : (s.memWrite a v).runState = s.runState := rfl
@[simp] theorem State.memWrite_reg (a v : Word) (q : Reg) : (s.memWrite a v).reg q = s.reg q := rfl

/-! ## setCursor -/

@[simp] theorem State.setCursor_x (c : Nat) : (s.setCursor c).x = s.x := rfl
@[simp] theorem State.setCursor_pc (c : Nat) : (s.setCursor c).pc = s.pc := rfl
@[simp] theorem State.setCursor_psr (c : Nat) : (s.setCursor c).psr = s.psr := rfl
@[simp] theorem State.setCursor_mem (c : Nat) : (s.setCursor c).mem = s.mem := rfl
@[simp] theorem State.setCursor_bp (c : Nat) : (s.setCursor c).bp = s.bp := rfl
@[simp] theorem State.setCursor_input (c : Nat) : (s.setCursor c).input = s.input := rfl
@[simp] theorem State.setCursor_cursor (c : Nat) : (s.setCursor c).cursor = c := rfl
@[simp] theorem State.setCursor_output (c : Nat) : (s.setCursor c).output = s.output := rfl
@[simp] theorem State.setCursor_cost (c : Nat) : (s.setCursor c).cost = s.cost := rfl
@[simp] theorem State.setCursor_runState (c : Nat) : (s.setCursor c).runState = s.runState := rfl
@[simp] theorem State.setCursor_reg (c : Nat) (q : Reg) : (s.setCursor c).reg q = s.reg q := rfl
@[simp] theorem State.setCursor_memRead (c : Nat) (p : Word) : (s.setCursor c).memRead p = s.memRead p := rfl

/-! ## appendOutput -/

@[simp] theorem State.appendOutput_x (cs : List CharCode) : (s.appendOutput cs).x = s.x := rfl
@[simp] theorem State.appendOutput_pc (cs : List CharCode) : (s.appendOutput cs).pc = s.pc := rfl
@[simp] theorem State.appendOutput_psr (cs : List CharCode) : (s.appendOutput cs).psr = s.psr := rfl
@[simp] theorem State.appendOutput_mem (cs : List CharCode) : (s.appendOutput cs).mem = s.mem := rfl
@[simp] theorem State.appendOutput_bp (cs : List CharCode) : (s.appendOutput cs).bp = s.bp := rfl
@[simp] theorem State.appendOutput_input (cs : List CharCode) : (s.appendOutput cs).input = s.input := rfl
@[simp] theorem State.appendOutput_cursor (cs : List CharCode) : (s.appendOutput cs).cursor = s.cursor := rfl
@[simp] theorem State.appendOutput_output (cs : List CharCode) : (s.appendOutput cs).output = s.output ++ cs := rfl
@[simp] theorem State.appendOutput_cost (cs : List CharCode) : (s.appendOutput cs).cost = s.cost := rfl
@[simp] theorem State.appendOutput_runState (cs : List CharCode) : (s.appendOutput cs).runState = s.runState := rfl
@[simp] theorem State.appendOutput_reg (cs : List CharCode) (q : Reg) : (s.appendOutput cs).reg q = s.reg q := rfl
@[simp] theorem State.appendOutput_memRead (cs : List CharCode) (p : Word) : (s.appendOutput cs).memRead p = s.memRead p := rfl

/-! ## addCost -/

@[simp] theorem State.addCost_x (c : Nat) : (s.addCost c).x = s.x := rfl
@[simp] theorem State.addCost_pc (c : Nat) : (s.addCost c).pc = s.pc := rfl
@[simp] theorem State.addCost_psr (c : Nat) : (s.addCost c).psr = s.psr := rfl
@[simp] theorem State.addCost_mem (c : Nat) : (s.addCost c).mem = s.mem := rfl
@[simp] theorem State.addCost_bp (c : Nat) : (s.addCost c).bp = s.bp := rfl
@[simp] theorem State.addCost_input (c : Nat) : (s.addCost c).input = s.input := rfl
@[simp] theorem State.addCost_cursor (c : Nat) : (s.addCost c).cursor = s.cursor := rfl
@[simp] theorem State.addCost_output (c : Nat) : (s.addCost c).output = s.output := rfl
@[simp] theorem State.addCost_cost (c : Nat) : (s.addCost c).cost = s.cost + c := rfl
@[simp] theorem State.addCost_runState (c : Nat) : (s.addCost c).runState = s.runState := rfl
@[simp] theorem State.addCost_reg (c : Nat) (q : Reg) : (s.addCost c).reg q = s.reg q := rfl
@[simp] theorem State.addCost_memRead (c : Nat) (p : Word) : (s.addCost c).memRead p = s.memRead p := rfl

/-! ## setRunState -/

@[simp] theorem State.setRunState_x (st : RunState) : (s.setRunState st).x = s.x := rfl
@[simp] theorem State.setRunState_pc (st : RunState) : (s.setRunState st).pc = s.pc := rfl
@[simp] theorem State.setRunState_psr (st : RunState) : (s.setRunState st).psr = s.psr := rfl
@[simp] theorem State.setRunState_mem (st : RunState) : (s.setRunState st).mem = s.mem := rfl
@[simp] theorem State.setRunState_bp (st : RunState) : (s.setRunState st).bp = s.bp := rfl
@[simp] theorem State.setRunState_input (st : RunState) : (s.setRunState st).input = s.input := rfl
@[simp] theorem State.setRunState_cursor (st : RunState) : (s.setRunState st).cursor = s.cursor := rfl
@[simp] theorem State.setRunState_output (st : RunState) : (s.setRunState st).output = s.output := rfl
@[simp] theorem State.setRunState_cost (st : RunState) : (s.setRunState st).cost = s.cost := rfl
@[simp] theorem State.setRunState_runState (st : RunState) : (s.setRunState st).runState = st := rfl
@[simp] theorem State.setRunState_reg (st : RunState) (q : Reg) : (s.setRunState st).reg q = s.reg q := rfl
@[simp] theorem State.setRunState_memRead (st : RunState) (p : Word) : (s.setRunState st).memRead p = s.memRead p := rfl

/-! ## takeFault -/

@[simp] theorem State.takeFault_x (k : FaultKind) : (s.takeFault k).x = s.x := rfl
@[simp] theorem State.takeFault_pc (k : FaultKind) : (s.takeFault k).pc = s.pc := rfl
@[simp] theorem State.takeFault_psr (k : FaultKind) : (s.takeFault k).psr = s.psr := rfl
@[simp] theorem State.takeFault_mem (k : FaultKind) : (s.takeFault k).mem = s.mem := rfl
@[simp] theorem State.takeFault_bp (k : FaultKind) : (s.takeFault k).bp = s.bp := rfl
@[simp] theorem State.takeFault_input (k : FaultKind) : (s.takeFault k).input = s.input := rfl
@[simp] theorem State.takeFault_cursor (k : FaultKind) : (s.takeFault k).cursor = s.cursor := rfl
@[simp] theorem State.takeFault_output (k : FaultKind) : (s.takeFault k).output = s.output := rfl
@[simp] theorem State.takeFault_cost (k : FaultKind) : (s.takeFault k).cost = s.cost := rfl
@[simp] theorem State.takeFault_runState (k : FaultKind) : (s.takeFault k).runState = .faulted k := rfl
@[simp] theorem State.takeFault_reg (k : FaultKind) (q : Reg) : (s.takeFault k).reg q = s.reg q := rfl
@[simp] theorem State.takeFault_memRead (k : FaultKind) (p : Word) : (s.takeFault k).memRead p = s.memRead p := rfl

/-! ## The register file -/

/-- Reading a register after a write of one (R17, R18). -/
@[simp] theorem Regs.get_set (x : Regs) (r q : Reg) (v : Word) :
    (x.set r v).get q = if q = r then v else x.get q := by
  cases r <;> cases q <;> rfl

@[simp] theorem State.setReg_reg (r q : Reg) (v : Word) :
    (s.setReg r v).reg q = if q = r then v else s.reg q := Regs.get_set s.x r q v

@[simp] theorem State.setRegCC_reg (r q : Reg) (v : Word) :
    (s.setRegCC r v).reg q = if q = r then v else s.reg q := Regs.get_set s.x r q v

/-- Two register files that read alike are equal. -/
theorem Regs.ext_get {x y : Regs} (h : ∀ r, x.get r = y.get r) : x = y := by
  have h0 := h .r0; have h1 := h .r1; have h2 := h .r2; have h3 := h .r3
  have h4 := h .r4; have h5 := h .r5; have h6 := h .r6; have h7 := h .r7
  cases x; cases y; simp_all [Regs.get]

end Sys2Proof.Machine
end

