-- ==== Sys2Proof/Laws/Memory.lean ====
section
/-! SUPPORT. The laws of the word memory and of the breakpoint set: reading after a write, and every
operation keeps the canonical form. -/

namespace Sys2Proof.Machine

/-! ## Reading -/

theorem Memory.read_erase (m : Memory) (a b : Nat) :
    (m.erase a).read b = if b = a then unlistedWord else m.read b := by
  induction m with
  | nil => simp [Memory.erase, Memory.read]
  | cons c rest ih =>
    obtain ⟨k, w⟩ := c
    by_cases hk : k = a <;> by_cases hb : b = a <;> by_cases hkb : k = b <;>
      simp_all [Memory.erase, Memory.read]

theorem Memory.read_insert (m : Memory) (a b : Nat) (v : Word)
    (h : ∀ c ∈ m, c.1 ≠ a) : (m.insert a v).read b = if b = a then v else m.read b := by
  induction m with
  | nil => simp [Memory.insert, Memory.read, eq_comm]
  | cons c rest ih =>
    obtain ⟨k, w⟩ := c
    have hk : k ≠ a := h (k, w) (by simp)
    have ih := ih fun c hc => h c (by simp [hc])
    by_cases hlt : a < k
    · rcases eq_or_ne b a with rfl | hb
      · simp [Memory.insert, Memory.read, hlt]
      · simp [Memory.insert, Memory.read, hlt, hb, Ne.symm hb]
    · by_cases hkb : k = b
      · subst hkb
        simp [Memory.insert, Memory.read, hlt, hk]
      · simp [Memory.insert, Memory.read, hlt, hkb, ih]

theorem Memory.mem_erase {m : Memory} {a : Nat} {c : Nat × Word} :
    c ∈ m.erase a ↔ c ∈ m ∧ c.1 ≠ a := by
  induction m with
  | nil => simp [Memory.erase]
  | cons d rest ih =>
    obtain ⟨k, w⟩ := d
    obtain ⟨j, u⟩ := c
    by_cases hk : k = a
    · have : ∀ P : Prop, (((j = k ∧ u = w) ∨ P) ∧ j ≠ a) ↔ (P ∧ j ≠ a) := by grind
      simp [Memory.erase, hk, ih]
      grind
    · simp [Memory.erase, hk, ih]
      grind

/-- "A read returns the value of the most recent write to the same address" (R45). -/
@[simp] theorem Memory.read_write (m : Memory) (a b : Nat) (v : Word) :
    (m.write a v).read b = if b = a then v else m.read b := by
  unfold Memory.write
  split
  · next h => simp [Memory.read_erase, h]
  · rw [Memory.read_insert _ _ _ _ (fun c hc => (Memory.mem_erase.mp hc).2), Memory.read_erase]
    by_cases hb : b = a <;> simp [hb]

@[simp] theorem State.memWrite_memRead (s : State) (a b v : Word) :
    (s.memWrite a v).memRead b = if b = a then v else s.memRead b := by
  simp [State.memRead, State.memWrite, BitVec.toNat_inj]

/-! ## The canonical form -/

theorem Memory.mem_insert {m : Memory} {a : Nat} {v : Word} {c : Nat × Word} :
    c ∈ m.insert a v ↔ c = (a, v) ∨ c ∈ m := by
  induction m with
  | nil => simp [Memory.insert]
  | cons d rest ih =>
    obtain ⟨k, w⟩ := d
    by_cases hlt : a < k
    · simp [Memory.insert, hlt]
    · simp [Memory.insert, hlt, ih]
      tauto

theorem Memory.pairwise_erase {m : Memory} (a : Nat) (h : m.Pairwise (fun c d => c.1 < d.1)) :
    (m.erase a).Pairwise (fun c d => c.1 < d.1) := by
  induction m with
  | nil => exact h
  | cons c rest ih =>
    obtain ⟨k, w⟩ := c
    rw [List.pairwise_cons] at h
    by_cases hk : k = a
    · simpa [Memory.erase, hk] using ih h.2
    · simpa [Memory.erase, hk, List.pairwise_cons] using
        ⟨fun j u hj => h.1 _ (Memory.mem_erase.mp hj).1, ih h.2⟩

theorem Memory.pairwise_insert {m : Memory} (a : Nat) (v : Word)
    (h : m.Pairwise (fun c d => c.1 < d.1)) (ha : ∀ c ∈ m, c.1 ≠ a) :
    (m.insert a v).Pairwise (fun c d => c.1 < d.1) := by
  induction m with
  | nil => simp [Memory.insert]
  | cons c rest ih =>
    obtain ⟨k, w⟩ := c
    have hk : k ≠ a := ha (k, w) (by simp)
    have hrest := List.pairwise_cons.mp h
    by_cases hlt : a < k
    · simp only [Memory.insert, hlt, if_true]
      refine List.pairwise_cons.mpr ⟨fun d hd => ?_, h⟩
      rcases List.mem_cons.mp hd with rfl | hd
      · exact hlt
      · exact lt_trans hlt (hrest.1 d hd)
    · simp only [Memory.insert, hlt, if_false]
      refine List.pairwise_cons.mpr ⟨fun d hd => ?_, ih hrest.2 fun c hc => ha c (by simp [hc])⟩
      rcases Memory.mem_insert.mp hd with rfl | hd
      · exact lt_of_le_of_ne (not_lt.mp hlt) hk
      · exact hrest.1 d hd

/-- A write inside the address space keeps the canonical form. -/
theorem Memory.wf_write {m : Memory} {a : Nat} (v : Word) (h : m.wf) (ha : a < 0x10000) :
    (m.write a v).wf := by
  unfold Memory.write
  split
  · exact ⟨Memory.pairwise_erase a h.1, fun c hc => h.2 c (Memory.mem_erase.mp hc).1⟩
  · next hv =>
    refine ⟨Memory.pairwise_insert a v (Memory.pairwise_erase a h.1)
      fun c hc => (Memory.mem_erase.mp hc).2, fun c hc => ?_⟩
    rcases Memory.mem_insert.mp hc with rfl | hc
    · exact ⟨ha, hv⟩
    · exact h.2 c (Memory.mem_erase.mp hc).1

theorem State.wf_memWrite {s : State} (a v : Word) (h : s.mem.wf) : (s.memWrite a v).mem.wf :=
  Memory.wf_write v h a.isLt

/-- A load inside the address space keeps the canonical form. -/
theorem Memory.wf_load {m : Memory} {a : Nat} (ws : List Word) (h : m.wf)
    (ha : a + ws.length ≤ 0x10000) : (m.load a ws).wf := by
  induction ws generalizing m a with
  | nil => exact h
  | cons w rest ih =>
    simp only [List.length_cons] at ha
    exact ih (Memory.wf_write w h (by omega)) (by omega)

/-- Reading after a load: the word loaded there, else what was there before (R114). -/
theorem Memory.read_load (m : Memory) (a b : Nat) (ws : List Word) :
    (m.load a ws).read b =
      if h : a ≤ b ∧ b - a < ws.length then ws[b - a]'h.2 else m.read b := by
  induction ws generalizing m a with
  | nil => simp [Memory.load]
  | cons w rest ih =>
    rw [Memory.load, ih]
    by_cases h1 : a + 1 ≤ b ∧ b - (a + 1) < rest.length
    · have h2 : a ≤ b ∧ b - a < (w :: rest).length := by simp only [List.length_cons]; omega
      have h3 : b - a = (b - (a + 1)) + 1 := by omega
      rw [dif_pos h1, dif_pos h2]
      simp only [h3, List.getElem_cons_succ]
    · by_cases h2 : b = a
      · subst h2; simp
      · have h3 : ¬ (a ≤ b ∧ b - a < (w :: rest).length) := by simp only [List.length_cons]; omega
        simp only [h1, h3, dite_false, Memory.read_write, h2, if_false]

/-- Two canonical memories that read alike at every address are the same data. -/
theorem Memory.ext_read {m n : Memory} (hm : m.wf) (hn : n.wf)
    (h : ∀ a, m.read a = n.read a) : m = n := by
  have key : ∀ {k : Memory}, k.wf → ∀ {c : Nat × Word}, c ∈ k ↔ k.read c.1 = c.2 ∧ c.2 ≠ unlistedWord := by
    intro k hk c
    induction k with
    | nil => simp [Memory.read]; intro h; exact h.symm
    | cons d rest ih =>
      obtain ⟨j, u⟩ := d
      obtain ⟨a, v⟩ := c
      have hp := List.pairwise_cons.mp hk.1
      have ih := ih ⟨hp.2, fun c hc => hk.2 c (by simp [hc])⟩
      have hu := (hk.2 (j, u) (by simp)).2
      by_cases hj : j = a
      · subst hj
        have hnot : (j, v) ∉ rest := fun hc => absurd (hp.1 _ hc) (lt_irrefl _)
        simp only [List.mem_cons, hnot, or_false, Memory.read, if_true, Prod.mk.injEq, true_and]
        constructor
        · rintro rfl; exact ⟨rfl, hu⟩
        · rintro ⟨h, -⟩; exact h.symm
      · simpa [Memory.read, hj, Ne.symm hj] using ih
  have hmn : ∀ c, c ∈ m ↔ c ∈ n := fun c => by rw [key hm, key hn, h]
  have nodup : ∀ {k : Memory}, k.wf → k.Nodup := fun hk =>
    hk.1.imp fun {c d} hcd hEq => absurd hcd (by rw [hEq]; exact lt_irrefl _)
  exact ((List.perm_ext_iff_of_nodup (nodup hm) (nodup hn)).mpr hmn).eq_of_pairwise
    (fun c d _ _ h1 h2 => absurd (lt_trans h1 h2) (lt_irrefl _)) hm.1 hn.1

/-! ## Breakpoints -/

/-- Membership after adding an address: set union with the singleton (R28). -/
@[simp] theorem Breakpoints.mem_insert {b : Breakpoints} {a c : Word} :
    c ∈ b.insert a ↔ c = a ∨ c ∈ b := by
  induction b with
  | nil => simp [Breakpoints.insert]
  | cons d rest ih =>
    unfold Breakpoints.insert
    split
    · simp
    · split
      · next h => subst h; simp
      · simp only [List.mem_cons, ih]; tauto

/-- Adding an address keeps the set's canonical form. -/
theorem Breakpoints.wf_insert {b : Breakpoints} (a : Word) (h : b.wf) : (b.insert a).wf := by
  induction b with
  | nil => simp [Breakpoints.insert]
  | cons d rest ih =>
    have hp := List.pairwise_cons.mp h
    unfold Breakpoints.insert
    split
    · next hlt =>
      refine List.pairwise_cons.mpr ⟨fun c hc => ?_, h⟩
      rcases List.mem_cons.mp hc with rfl | hc
      · exact hlt
      · exact lt_trans hlt (hp.1 c hc)
    · next hlt =>
      split
      · exact h
      · next hne =>
        refine List.pairwise_cons.mpr ⟨fun c hc => ?_, ih hp.2⟩
        rcases Breakpoints.mem_insert.mp hc with rfl | hc
        · exact lt_of_le_of_ne (not_lt.mp hlt) fun he => hne (BitVec.eq_of_toNat_eq he.symm)
        · exact hp.1 c hc

/-- Adding a member changes nothing: "idempotent" (R28). -/
theorem Breakpoints.insert_of_mem {b : Breakpoints} {a : Word} (h : b.wf) (ha : a ∈ b) :
    b.insert a = b := by
  induction b with
  | nil => simp at ha
  | cons d rest ih =>
    have hp := List.pairwise_cons.mp h
    rcases List.mem_cons.mp ha with rfl | ha
    · simp [Breakpoints.insert]
    · have hlt := hp.1 a ha
      have h1 : ¬ a.toNat < d.toNat := not_lt.mpr (le_of_lt hlt)
      have h2 : a ≠ d := fun he => absurd hlt (by rw [he]; exact lt_irrefl _)
      simp [Breakpoints.insert, h1, h2, ih hp.2 ha]

end Sys2Proof.Machine
end

