-- ==== Sys2Proof/Laws/Flags.lean ====
section
/-! SUPPORT. The laws of the condition-code unit: each flag after setCC, and the bits it keeps. -/

namespace Sys2Proof.Machine

/-- `signed16` is the two's-complement reading (R10). -/
theorem signed16_eq_toInt (w : Word) : signed16 w = w.toInt := by
  have hm : w.getLsbD 15 = decide (2 ^ 15 ≤ w.toNat) := by
    have := BitVec.msb_eq_decide w
    simpa [BitVec.msb_eq_getLsbD_last] using this
  rw [signed16, BitVec.toInt_eq_toNat_cond, hm]
  have := w.isLt
  by_cases h : 2 ^ 15 ≤ w.toNat <;> simp <;> omega

/-! ## The bits setCC keeps -/

theorem setCC_extract (v psr : Word) :
    (setCC v psr).extractLsb' 3 13 = psr.extractLsb' 3 13 := by
  unfold setCC
  generalize ccBits v = c
  bv_normalize

/-- "psr[15:3] unchanged" (R75), bit by bit. -/
theorem setCC_getLsbD_high (v psr : Word) {i : Nat} (h : 3 ≤ i) :
    (setCC v psr).getLsbD i = psr.getLsbD i := by
  by_cases hi : i < 16
  · have := congrArg (fun b : BitVec 13 => b.getLsbD (i - 3)) (setCC_extract v psr)
    have h13 : i - 3 < 13 := by omega
    have h3 : 3 + (i - 3) = i := by omega
    simpa [h13, h3] using this
  · simp [BitVec.getLsbD_of_ge _ _ (not_lt.mp hi)]

@[simp] theorem psrM_setCC (v psr : Word) : psrM (setCC v psr) = psrM psr :=
  setCC_getLsbD_high v psr (by decide)

/-! ## The bits setCC writes -/

/-- The three low bits are the result's condition codes. -/
theorem setCC_low (v psr : Word) : (setCC v psr).extractLsb' 0 3 = ccBits v := by
  unfold setCC
  generalize ccBits v = c
  bv_normalize

theorem setCC_getLsbD_low (v psr : Word) {i : Nat} (h : i < 3) :
    (setCC v psr).getLsbD i = (ccBits v).getLsbD i := by
  have := congrArg (fun b : BitVec 3 => b.getLsbD i) (setCC_low v psr)
  simpa [h] using this

/-- The condition codes by the sign of the value (R75). -/
theorem ccBits_cases (v : Word) :
    (v.toInt < 0 ∧ v ≠ 0 ∧ ccBits v = 0b100#3) ∨
    (v = 0 ∧ ccBits v = 0b010#3) ∨
    (0 < v.toInt ∧ v ≠ 0 ∧ ccBits v = 0b001#3) := by
  unfold ccBits
  rw [signed16_eq_toInt]
  rcases lt_trichotomy v.toInt 0 with h | h | h
  · have hz : v ≠ 0 := by rintro rfl; simp at h
    exact .inl ⟨h, hz, by simp [h]⟩
  · have hz : v = 0 := BitVec.toInt_inj.mp (by simpa using h)
    exact .inr (.inl ⟨hz, by simp [hz]⟩)
  · have hz : v ≠ 0 := by rintro rfl; simp at h
    exact .inr (.inr ⟨h, hz, by rw [if_neg (not_lt.mpr h.le), if_neg hz]⟩)

/-- N after setCC: the result is negative (R75). -/
@[simp] theorem psrN_setCC (v psr : Word) : psrN (setCC v psr) = decide (v.toInt < 0) := by
  rw [psrN, setCC_getLsbD_low v psr (by decide)]
  rcases ccBits_cases v with ⟨h, -, hc⟩ | ⟨rfl, hc⟩ | ⟨h, -, hc⟩
  · simp [hc, h]
  · rw [hc]; decide
  · simp [hc, h.le]

/-- Z after setCC: the result is zero (R75). -/
@[simp] theorem psrZ_setCC (v psr : Word) : psrZ (setCC v psr) = decide (v = 0) := by
  rw [psrZ, setCC_getLsbD_low v psr (by decide)]
  rcases ccBits_cases v with ⟨-, hz, hc⟩ | ⟨rfl, hc⟩ | ⟨-, hz, hc⟩
  · simpa [hc] using hz
  · rw [hc]; decide
  · simpa [hc] using hz

/-- P after setCC: the result is positive (R75). -/
@[simp] theorem psrP_setCC (v psr : Word) : psrP (setCC v psr) = decide (0 < v.toInt) := by
  rw [psrP, setCC_getLsbD_low v psr (by decide)]
  rcases ccBits_cases v with ⟨h, -, hc⟩ | ⟨rfl, hc⟩ | ⟨h, -, hc⟩
  · simp [hc, h.le]
  · rw [hc]; decide
  · simp [hc, h]

end Sys2Proof.Machine
end

