-- ==== Sys2Proof/Laws/Operands.lean ====
section
/-! SUPPORT. The laws of the address check and of the operand forms. -/

namespace Sys2Proof.Machine

/-! ## checkAddr (R38) -/

/-- The check, as the spec writes it: `0 <= a <= 0xFFFF`. -/
theorem checkAddr_eq_ite (a : Int) :
    checkAddr a = if 0 ≤ a ∧ a ≤ 0xFFFF then .ok (trunc16 a) else .error (.addressOutOfRange a) := by
  cases a with
  | ofNat n =>
    by_cases h : n < 0x10000
    · have h' : 0 ≤ Int.ofNat n ∧ Int.ofNat n ≤ 0xFFFF := by simp only [Int.ofNat_eq_natCast]; omega
      rw [if_pos h']
      simp [checkAddr, h, trunc16]
    · have h' : ¬ (0 ≤ Int.ofNat n ∧ Int.ofNat n ≤ 0xFFFF) := by
        simp only [Int.ofNat_eq_natCast]; omega
      rw [if_neg h']
      simp [checkAddr, h]
  | negSucc n => rw [if_neg (by omega)]; rfl

/-- The check answers a word exactly where the word is that address. -/
theorem checkAddr_eq_ok_iff {a : Int} {w : Word} : checkAddr a = .ok w ↔ a = (w.toNat : Int) := by
  have := w.isLt
  rw [checkAddr_eq_ite]
  split
  · next h =>
    simp only [Except.ok.injEq, trunc16]
    constructor
    · rintro rfl
      simp only [BitVec.toNat_ofInt]
      omega
    · intro he
      subst he
      exact BitVec.eq_of_toNat_eq (by simp only [BitVec.toNat_ofInt]; omega)
  · next h => simp only [reduceCtorEq, false_iff]; omega

/-- Outside 0..0xFFFF it raises AddressOutOfRange, recording the address. -/
theorem checkAddr_eq_error_iff {a : Int} {k : FaultKind} :
    checkAddr a = .error k ↔ (a < 0 ∨ 0xFFFF < a) ∧ k = .addressOutOfRange a := by
  rw [checkAddr_eq_ite]
  split
  · next h => simp only [reduceCtorEq, false_iff]; omega
  · next h =>
    simp only [Except.error.injEq]
    constructor
    · rintro rfl; exact ⟨by omega, rfl⟩
    · rintro ⟨-, rfl⟩; rfl

theorem checkAddr_of_eq {a : Int} {w : Word} (h : (w.toNat : Int) = a) : checkAddr a = .ok w :=
  checkAddr_eq_ok_iff.mpr h.symm

theorem checkAddr_of_outside {a : Int} (h : a < 0 ∨ 0xFFFF < a) :
    checkAddr a = .error (.addressOutOfRange a) :=
  checkAddr_eq_error_iff.mpr ⟨h, rfl⟩

/-- An address that is already a word is never rejected (R41). -/
@[simp] theorem checkAddr_toNat (w : Word) : checkAddr (w.toNat : Int) = .ok w :=
  checkAddr_of_eq rfl

/-- The only fault the check raises. -/
theorem checkAddr_error_kind {a : Int} {k : FaultKind} (h : checkAddr a = .error k) :
    k = .addressOutOfRange a := (checkAddr_eq_error_iff.mp h).2

/-! ## Extension (R11) -/

/-- `sext_N` is the two's-complement reading of the field. -/
theorem sext_eq_toInt {n : Nat} (f : BitVec n) : sext f = f.toInt := by
  have hm : f.getLsbD (n - 1) = decide (2 ^ (n - 1) ≤ f.toNat) ∨ n = 0 := by
    rcases Nat.eq_zero_or_pos n with h | h
    · exact .inr h
    · left
      have := BitVec.msb_eq_decide f
      simpa [BitVec.msb_eq_getLsbD_last] using this
  rcases hm with hm | rfl
  · rcases Nat.eq_zero_or_pos n with rfl | hn
    · simp [sext, BitVec.of_length_zero (x := f)]
    · have hpow : 2 ^ n = 2 * 2 ^ (n - 1) := by
        rw [← pow_succ']; congr 1; omega
      have hcast : ((2 ^ n : Nat) : Int) = 2 ^ n := by push_cast; rfl
      rw [sext, BitVec.toInt_eq_toNat_cond, hm]
      by_cases h : 2 ^ (n - 1) ≤ f.toNat
      · have h2 : ¬ 2 * f.toNat < 2 ^ n := by omega
        simp [h, h2]
      · have h2 : 2 * f.toNat < 2 ^ n := by omega
        simp [h, h2]
  · simp [sext, BitVec.of_length_zero (x := f)]

/-- The immediate operand is imm5 sign-extended to 16 bits (R53, R74). -/
theorem immOperand_eq_signExtend (imm : BitVec 5) : immOperand imm = imm.signExtend 16 := by
  rw [immOperand, sext_eq_toInt]; rfl

/-! ## Effective addresses (R85) -/

/-- The address an indirect form reaches: the word at the PC-relative pointer. -/
theorem indirect_of_ok {s : State} {off : BitVec 9} {p : Word} (h : pcRelative9 s off = .ok p) :
    indirect s off = .ok (s.memRead p) := by
  simp [indirect, h]

theorem indirect_of_error {s : State} {off : BitVec 9} {k : FaultKind}
    (h : pcRelative9 s off = .error k) : indirect s off = .error k := by
  simp [indirect, h]

end Sys2Proof.Machine
end

