-- ==== Sys2Proof/Laws/Ops.lean ====
section
/-! SUPPORT. What executing one instruction atomically can do, said once: it completes with the body's
state and its base cost, or it takes a fault from the state before the fetch. -/

namespace Sys2Proof.Machine

/-- The pc an instruction's body sees where the increment is in range (R68). -/
theorem pc_increment {s : State} (h : s.pc.toNat < 0xFFFF) :
    checkAddr (s.pc.toNat + 1) = .ok (s.pc + 1#16) :=
  checkAddr_of_eq (by simp only [BitVec.toNat_add, BitVec.toNat_ofNat]; omega)

theorem pc_succ_toNat {s : State} (h : s.pc.toNat < 0xFFFF) :
    (s.pc + 1#16).toNat = s.pc.toNat + 1 := by
  simp only [BitVec.toNat_add, BitVec.toNat_ofNat]; omega

/-- Completion: the body answers a state and its cost is added (R66, R70). -/
theorem atomically_of_ok {op : BitVec 4} {s u : State} {body : State → Except FaultKind State}
    (hpc : s.pc.toNat < 0xFFFF) (h : body (s.setPc (s.pc + 1#16)) = .ok u) :
    atomically op s body = .next (u.addCost (Config.baseCost op)) := by
  simp [atomically, pc_increment hpc, h]

/-- A fault of the body: the state before the fetch takes it (R66, R100). -/
theorem atomically_of_error {op : BitVec 4} {s : State} {k : FaultKind}
    {body : State → Except FaultKind State} (hpc : s.pc.toNat < 0xFFFF)
    (h : body (s.setPc (s.pc + 1#16)) = .error k) :
    atomically op s body = .next (s.takeFault k) := by
  simp [atomically, pc_increment hpc, h]

/-- At 0xFFFF the increment is out of range, whatever the instruction (R22, R68). -/
theorem atomically_of_top {op : BitVec 4} {s : State} {body : State → Except FaultKind State}
    (hpc : s.pc = 0xFFFF#16) :
    atomically op s body = .next (s.takeFault (.addressOutOfRange 0x10000)) := by
  have : checkAddr (s.pc.toNat + 1) = .error (.addressOutOfRange 0x10000) := by
    rw [hpc]; exact checkAddr_of_outside (by decide)
  simp [atomically, this]

/-- A pc is below the top or at it. -/
theorem pc_cases (s : State) : s.pc.toNat < 0xFFFF ∨ s.pc = 0xFFFF#16 := by
  have := s.pc.isLt
  rcases Nat.lt_or_ge s.pc.toNat 0xFFFF with h | h
  · exact .inl h
  · exact .inr (BitVec.eq_of_toNat_eq (by simp only [BitVec.toNat_ofNat]; omega))

/-- Everything an atomic execution can do. -/
theorem atomically_cases {op : BitVec 4} {s : State} {body : State → Except FaultKind State}
    {o : Host.Outcome State Fault Refusal} (h : atomically op s body = o) :
    (∃ k, o = .next (s.takeFault k) ∧
      (s.pc = 0xFFFF#16 ∨ body (s.setPc (s.pc + 1#16)) = .error k)) ∨
    (∃ u, s.pc.toNat < 0xFFFF ∧ body (s.setPc (s.pc + 1#16)) = .ok u ∧
      o = .next (u.addCost (Config.baseCost op))) := by
  subst h
  rcases pc_cases s with hpc | hpc
  · cases hb : body (s.setPc (s.pc + 1#16)) with
    | error k => exact .inl ⟨k, atomically_of_error hpc hb, .inr rfl⟩
    | ok u => exact .inr ⟨u, hpc, rfl, atomically_of_ok hpc hb⟩
  · exact .inl ⟨_, atomically_of_top hpc, .inl hpc⟩

/-- The same for a known next state. -/
theorem atomically_next_cases {op : BitVec 4} {s t : State} {body : State → Except FaultKind State}
    (h : atomically op s body = .next t) :
    (∃ k, t = s.takeFault k) ∨
    (∃ u, s.pc.toNat < 0xFFFF ∧ body (s.setPc (s.pc + 1#16)) = .ok u ∧
      t = u.addCost (Config.baseCost op)) := by
  rcases atomically_cases h with ⟨k, ht, -⟩ | ⟨u, hpc, hb, ht⟩
  · exact .inl ⟨k, Host.Outcome.next.inj ht⟩
  · exact .inr ⟨u, hpc, hb, Host.Outcome.next.inj ht⟩

/-- The pop of RTI where it completes (R84). -/
theorem returnFromInterrupt_of_room {s : State} (hm : psrM s.psr = false)
    (hsp : (s.reg .r6).toNat ≤ 0xFFFD) :
    returnFromInterrupt s = .ok (((s.setReg .r6 (s.reg .r6 + 2#16)).setPc
      (s.memRead (s.reg .r6))).setPsr (s.memRead (s.reg .r6 + 1#16))) := by
  have h1 : checkAddr ((s.reg .r6).toNat + 1) = .ok (s.reg .r6 + 1#16) :=
    checkAddr_of_eq (by simp only [BitVec.toNat_add, BitVec.toNat_ofNat]; omega)
  have h2 : checkAddr ((s.reg .r6).toNat + 2) = .ok (s.reg .r6 + 2#16) :=
    checkAddr_of_eq (by simp only [BitVec.toNat_add, BitVec.toNat_ofNat]; omega)
  simp [returnFromInterrupt, rtiPermitted, Config.rtiPermittedMode, hm, h1, h2]

/-- The pop of RTI near the top of memory (R84, D24). -/
theorem returnFromInterrupt_of_top {s : State} (hm : psrM s.psr = false)
    (hsp : 0xFFFE ≤ (s.reg .r6).toNat) :
    returnFromInterrupt s = .error (.addressOutOfRange 0x10000) := by
  have hlt := (s.reg .r6).isLt
  rcases (by omega : (s.reg .r6).toNat = 0xFFFE ∨ (s.reg .r6).toNat = 0xFFFF) with h | h <;>
    simp [returnFromInterrupt, rtiPermitted, Config.rtiPermittedMode, hm, h, checkAddr]

/-- The pop of RTI in the mode that may not run it (R25). -/
theorem returnFromInterrupt_of_mode {s : State} (hm : psrM s.psr = true) :
    returnFromInterrupt s = .error .privilegeFault := by
  simp [returnFromInterrupt, rtiPermitted, Config.rtiPermittedMode, hm]

end Sys2Proof.Machine
end

