-- ==== Sys2Proof/Laws/Decode.lean ====
section
/-! SUPPORT. The laws of register numbers and of the two outcomes of the decoder's checks. -/

namespace Sys2Proof

@[simp] theorem Reg.ofBits_bits (r : Reg) : Reg.ofBits r.bits = r := by cases r <;> rfl

@[simp] theorem Reg.bits_ofBits (b : BitVec 3) : (Reg.ofBits b).bits = b := by
  revert b; decide

theorem Reg.bits_injective {r q : Reg} (h : r.bits = q.bits) : r = q := by
  rw [← Reg.ofBits_bits r, h, Reg.ofBits_bits]

/-- A word whose unused bits are as the format fixes them passes the check. -/
@[simp] theorem checkUnused_asFixed (strict : Bool) (w : Word) (i : Instr) :
    checkUnused strict true w i = .ok i := by cases strict <;> rfl

/-- Without STRICT_DECODE the unused bits are ignored (R57). -/
@[simp] theorem checkUnused_false (asFixed : Bool) (w : Word) (i : Instr) :
    checkUnused false asFixed w i = .ok i := rfl

/-- Under STRICT_DECODE a difference is Illegal (R57). -/
@[simp] theorem checkUnused_differs (w : Word) (i : Instr) :
    checkUnused true false w i = .error (.unusedBits w) := rfl

/-- The check answers an instruction only where the unused bits are as fixed, or unchecked. -/
theorem checkUnused_eq_ok_iff {strict asFixed : Bool} {w : Word} {i j : Instr} :
    checkUnused strict asFixed w i = .ok j ↔ (strict = true → asFixed = true) ∧ i = j := by
  cases strict <;> cases asFixed <;> simp [checkUnused]

/-- The halt word's test. -/
theorem isHaltWord_iff {w : Word} : isHaltWord w = true ↔ w = 0xF025#16 := by
  simp [isHaltWord, Config.haltWord]

/-- Only a word of TRAP's opcode can be the halt word. -/
theorem isHaltWord_of_opcode {w : Word} (h : opcodeField w ≠ 0b1111#4) : isHaltWord w = false := by
  rw [Bool.eq_false_iff]
  intro hw
  rw [isHaltWord_iff] at hw
  subst hw
  exact h (by decide)

/-- Away from the halt word, decoding is the spec's `decode(w)` (R55). -/
theorem decodeUnder_of_not_halt {strict : Bool} {w : Word} (h : isHaltWord w = false) :
    decodeUnder strict w = decodeFields strict w := by simp [decodeUnder, h]

/-- The configuration decodes strictly. -/
theorem decode_eq_decodeUnder (w : Word) : decode w = decodeUnder true w := rfl

end Sys2Proof
end

