-- ==== Sys2Proof/Laws/Trap.lean ====
section
/-! SUPPORT. What the string scan answers, said once: a zero word inside the space ends it, and without
one it runs past 0xFFFF (R97). -/

namespace Sys2Proof.Machine

/-- The first zero word at a + n, inside the room, ends the scan with the n codes before it. -/
theorem scanString_of_zero {m : Memory} {room a n : Nat} (hroom : n < room)
    (hne : ∀ i, i < n → m.read (a + i) ≠ 0) (hz : m.read (a + n) = 0) :
    scanString m room a = .ok ((List.range n).map fun i => charOf (m.read (a + i))) := by
  induction n generalizing room a with
  | zero =>
    obtain ⟨r, rfl⟩ : ∃ r, room = r + 1 := ⟨room - 1, by omega⟩
    have : m.read a = 0x0000#16 := hz
    simp [scanString, this]
  | succ n ih =>
    obtain ⟨r, rfl⟩ : ∃ r, room = r + 1 := ⟨room - 1, by omega⟩
    have h0 : m.read a ≠ 0x0000#16 := hne 0 (by omega)
    have step := ih (room := r) (a := a + 1) (by omega)
      (fun i hi => by have := hne (i + 1) (by omega); rwa [show a + 1 + i = a + (i + 1) by omega])
      (by rwa [show a + 1 + n = a + (n + 1) by omega])
    simp only [scanString, h0, if_false, step, List.range_succ_eq_map, List.map_cons, List.map_map,
      Nat.add_zero]
    congr 2
    exact List.map_congr_left fun i _ => by
      simp only [Function.comp_apply, show a + 1 + i = a + (i + 1) by omega, Nat.succ_eq_add_one]

/-- Without a zero word in the room the scan leaves it: AddressOutOfRange at the first address after. -/
theorem scanString_of_nonzero {m : Memory} {room a : Nat}
    (hne : ∀ i, i < room → m.read (a + i) ≠ 0) :
    scanString m room a = .error (.addressOutOfRange ((a + room : Nat) : Int)) := by
  induction room generalizing a with
  | zero => rfl
  | succ r ih =>
    have h0 : m.read a ≠ 0x0000#16 := hne 0 (by omega)
    have step := ih (a := a + 1)
      (fun i hi => by have := hne (i + 1) (by omega); rwa [show a + 1 + i = a + (i + 1) by omega])
    simp only [scanString, h0, if_false, step, show a + 1 + r = a + (r + 1) by omega]

/-- The only fault of the scan from a start address with the room up to the top of memory. -/
theorem scanString_error {m : Memory} {room a : Nat} {k : FaultKind}
    (h : scanString m room a = .error k) : k = .addressOutOfRange ((a + room : Nat) : Int) := by
  induction room generalizing a with
  | zero => simpa [scanString, eq_comm] using h
  | succ r ih =>
    by_cases h0 : m.read a = 0x0000#16
    · simp [scanString, h0] at h
    · cases hs : scanString m r (a + 1) with
      | ok cs => simp [scanString, h0, hs] at h
      | error k' =>
        have : k' = k := by simpa [scanString, h0, hs] using h
        subst this
        rw [ih hs, show a + 1 + r = a + (r + 1) by omega]

/-- The dispatcher's faults, by vector (R94 to R98). -/
theorem trapService_unsupported {vect : BitVec 8} {s : State} (h20 : vect ≠ 0x20)
    (h21 : vect ≠ 0x21) (h22 : vect ≠ 0x22) :
    trapService vect s = .error (.unsupportedTrap vect) := by
  have n20 : vect.toNat ≠ 0x20 := fun h => h20 (BitVec.eq_of_toNat_eq h)
  have n21 : vect.toNat ≠ 0x21 := fun h => h21 (BitVec.eq_of_toNat_eq h)
  have n22 : vect.toNat ≠ 0x22 := fun h => h22 (BitVec.eq_of_toNat_eq h)
  unfold trapService
  split <;> simp_all

end Sys2Proof.Machine
end

