-- ==== Sys2Proof/Laws/PerInstr.lean ====
section
/-! SUPPORT. Facts about every instruction as syntax, one lemma per constructor: the opcode field of its
word is its opcode value (spec/30_encoding.md R50, R52). -/

namespace Sys2Proof.Laws.OpcodeField

/-- `w[15:12]` of the encoded word is the instruction's opcode. -/
def Statement (i : Instr) : Prop := opcodeField (encode i) = i.opcode

theorem br (n z p : Bool) (off : BitVec 9) : Statement (.br n z p off) := by
  simp only [Statement, encode, opcodeField, Instr.opcode]
  bv_normalize

theorem addReg (dr sr1 sr2 : Reg) : Statement (.addReg dr sr1 sr2) := by
  simp only [Statement, encode, opcodeField, Instr.opcode]
  bv_normalize

theorem addImm (dr sr1 : Reg) (imm : BitVec 5) : Statement (.addImm dr sr1 imm) := by
  simp only [Statement, encode, opcodeField, Instr.opcode]
  bv_normalize

theorem ld (dr : Reg) (off : BitVec 9) : Statement (.ld dr off) := by
  simp only [Statement, encode, opcodeField, Instr.opcode]
  bv_normalize

theorem st (sr : Reg) (off : BitVec 9) : Statement (.st sr off) := by
  simp only [Statement, encode, opcodeField, Instr.opcode]
  bv_normalize

theorem jsr (off : BitVec 11) : Statement (.jsr off) := by
  simp only [Statement, encode, opcodeField, Instr.opcode]
  bv_normalize

theorem jsrr (base : Reg) : Statement (.jsrr base) := by
  simp only [Statement, encode, opcodeField, Instr.opcode]
  bv_normalize

theorem andReg (dr sr1 sr2 : Reg) : Statement (.andReg dr sr1 sr2) := by
  simp only [Statement, encode, opcodeField, Instr.opcode]
  bv_normalize

theorem andImm (dr sr1 : Reg) (imm : BitVec 5) : Statement (.andImm dr sr1 imm) := by
  simp only [Statement, encode, opcodeField, Instr.opcode]
  bv_normalize

theorem ldr (dr base : Reg) (off : BitVec 6) : Statement (.ldr dr base off) := by
  simp only [Statement, encode, opcodeField, Instr.opcode]
  bv_normalize

theorem str (sr base : Reg) (off : BitVec 6) : Statement (.str sr base off) := by
  simp only [Statement, encode, opcodeField, Instr.opcode]
  bv_normalize

theorem rti : Statement .rti := rfl

theorem not (dr sr : Reg) : Statement (.not dr sr) := by
  simp only [Statement, encode, opcodeField, Instr.opcode]
  bv_normalize

theorem ldi (dr : Reg) (off : BitVec 9) : Statement (.ldi dr off) := by
  simp only [Statement, encode, opcodeField, Instr.opcode]
  bv_normalize

theorem sti (sr : Reg) (off : BitVec 9) : Statement (.sti sr off) := by
  simp only [Statement, encode, opcodeField, Instr.opcode]
  bv_normalize

theorem jmp (base : Reg) : Statement (.jmp base) := by
  simp only [Statement, encode, opcodeField, Instr.opcode]
  bv_normalize

theorem reserved (low : BitVec 12) : Statement (.reserved low) := by
  simp only [Statement, encode, opcodeField, Instr.opcode]
  bv_normalize

theorem lea (dr : Reg) (off : BitVec 9) : Statement (.lea dr off) := by
  simp only [Statement, encode, opcodeField, Instr.opcode]
  bv_normalize

theorem trap (vect : BitVec 8) : Statement (.trap vect) := by
  simp only [Statement, encode, opcodeField, Instr.opcode, trapWord]
  bv_normalize

theorem halt : Statement .halt := rfl

end Sys2Proof.Laws.OpcodeField
end

