-- ==== Sys2Proof/Laws/Exec.lean ====
section
/-! SUPPORT. Every instruction but the halt word as one atomic execution of a body, so that what exec
can do is said once: it stops at the halt word, takes a fault, or completes with the body's state. -/

namespace Sys2Proof.Machine

/-- The execute part of each instruction, on the state whose pc is A + 1. -/
def body (i : Instr) (s : State) : Except FaultKind State :=
  match i with
  | .br n z p off =>
    if branchTaken n z p s.psr then
      match pcRelative9 s off with
      | .error k => .error k
      | .ok target => .ok (s.setPc target)
    else .ok s
  | .addReg dr sr1 sr2 => .ok (s.setRegCC dr (aluAdd (s.reg sr1) (s.reg sr2)))
  | .addImm dr sr1 imm => .ok (s.setRegCC dr (aluAdd (s.reg sr1) (immOperand imm)))
  | .ld dr off =>
    match pcRelative9 s off with
    | .error k => .error k
    | .ok a => .ok (s.setRegCC dr (s.memRead a))
  | .st sr off =>
    match pcRelative9 s off with
    | .error k => .error k
    | .ok a => .ok (s.memWrite a (s.reg sr))
  | .jsr off =>
    match pcRelative11 s off with
    | .error k => .error k
    | .ok target => .ok ((s.setReg .r7 s.pc).setPc target)
  | .jsrr base => .ok ((s.setReg .r7 s.pc).setPc (registerTarget (s.setReg .r7 s.pc) base))
  | .andReg dr sr1 sr2 => .ok (s.setRegCC dr (aluAnd (s.reg sr1) (s.reg sr2)))
  | .andImm dr sr1 imm => .ok (s.setRegCC dr (aluAnd (s.reg sr1) (immOperand imm)))
  | .ldr dr base off =>
    match baseOffset s base off with
    | .error k => .error k
    | .ok a => .ok (s.setRegCC dr (s.memRead a))
  | .str sr base off =>
    match baseOffset s base off with
    | .error k => .error k
    | .ok a => .ok (s.memWrite a (s.reg sr))
  | .rti => returnFromInterrupt s
  | .not dr sr => .ok (s.setRegCC dr (aluNot (s.reg sr)))
  | .ldi dr off =>
    match indirect s off with
    | .error k => .error k
    | .ok a => .ok (s.setReg dr (s.memRead a))
  | .sti sr off =>
    match indirect s off with
    | .error k => .error k
    | .ok a => .ok (s.memWrite a (s.reg sr))
  | .jmp base => .ok (s.setPc (registerTarget s base))
  | .reserved low => .error (.illegalInstruction (encode (.reserved low)))
  | .lea dr off =>
    match pcRelative9 s off with
    | .error k => .error k
    | .ok a => .ok (s.setRegCC dr a)
  | .trap vect =>
    match trapService vect (s.setReg .r7 s.pc) with
    | .error k => .error k
    | .ok (t, tc) => .ok (t.addCost tc)
  | .halt => .ok s

/-- Every instruction but the halt word is its body executed atomically at its opcode's cost. -/
theorem exec_eq_atomically {i : Instr} (h : i ≠ .halt) (s : State) :
    exec i s = atomically i.opcode s (body i) := by
  cases i with
  | halt => exact absurd rfl h
  | reserved low =>
    have hop : opcodeField (encode (.reserved low)) = Instr.opcode (.reserved low) :=
      Laws.OpcodeField.reserved low
    rw [exec, execReserved, raiseIllegal, hop]; rfl
  | _ => rfl

/-- What exec can do: stop at the halt word, take a fault, or complete. -/
theorem exec_cases {i : Instr} {s t : State} (h : exec i s = .next t) :
    (i = .halt ∧ t = s.setRunState .halted) ∨
    (i ≠ .halt ∧ ∃ k, t = s.takeFault k ∧
      ((s.pc = 0xFFFF#16 ∧ k = .addressOutOfRange 0x10000) ∨
        (s.pc.toNat < 0xFFFF ∧ body i (s.setPc (s.pc + 1#16)) = .error k))) ∨
    (i ≠ .halt ∧ s.pc.toNat < 0xFFFF ∧ ∃ u, body i (s.setPc (s.pc + 1#16)) = .ok u ∧
      t = u.addCost (Config.baseCost i.opcode)) := by
  by_cases hi : i = .halt
  · subst hi
    exact .inl ⟨rfl, (Host.Outcome.next.inj h).symm⟩
  · rw [exec_eq_atomically hi] at h
    rcases pc_cases s with hpc | hpc
    · cases hb : body i (s.setPc (s.pc + 1#16)) with
      | error k =>
        rw [atomically_of_error hpc hb] at h
        exact .inr (.inl ⟨hi, k, (Host.Outcome.next.inj h).symm, .inr ⟨hpc, rfl⟩⟩)
      | ok u =>
        rw [atomically_of_ok hpc hb] at h
        exact .inr (.inr ⟨hi, hpc, u, rfl, (Host.Outcome.next.inj h).symm⟩)
    · rw [atomically_of_top hpc] at h
      exact .inr (.inl ⟨hi, _, (Host.Outcome.next.inj h).symm, .inl ⟨hpc, rfl⟩⟩)

/-- Completion of an instruction whose body answers a state. -/
theorem exec_of_body {i : Instr} {s u : State} (hi : i ≠ .halt) (hpc : s.pc.toNat < 0xFFFF)
    (h : body i (s.setPc (s.pc + 1#16)) = .ok u) :
    exec i s = .next (u.addCost (Config.baseCost i.opcode)) := by
  rw [exec_eq_atomically hi, atomically_of_ok hpc h]

/-- The fault of an instruction whose body raises one. -/
theorem exec_of_body_error {i : Instr} {s : State} {k : FaultKind} (hi : i ≠ .halt)
    (hpc : s.pc.toNat < 0xFFFF) (h : body i (s.setPc (s.pc + 1#16)) = .error k) :
    exec i s = .next (s.takeFault k) := by
  rw [exec_eq_atomically hi, atomically_of_error hpc h]

/-- The fault of every instruction at the top of memory. -/
theorem exec_of_top {i : Instr} {s : State} (hi : i ≠ .halt) (hpc : s.pc = 0xFFFF#16) :
    exec i s = .next (s.takeFault (.addressOutOfRange 0x10000)) := by
  rw [exec_eq_atomically hi, atomically_of_top hpc]

/-! ## The run loop -/

/-- One iteration, by its three outcomes: a breakpoint, a decoded instruction, an Illegal word. -/
theorem step_of_break {s : State} (hr : s.runState = .running) (hb : s.pc ∈ s.bp) :
    step s = .next (s.setRunState .breakpointed) := by
  simp [step, runLoop, hr, runLoopIteration, hb]

theorem step_of_decode {s : State} {i : Instr} (hr : s.runState = .running) (hb : s.pc ∉ s.bp)
    (hd : decode (s.mem.read s.pc.toNat) = .ok i) : step s = exec i s := by
  have hd' : decode s.fetchWord = .ok i := hd
  simp [step, runLoop, hr, runLoopIteration, hb, hd']

theorem step_of_illegal {s : State} {w : Word} (hr : s.runState = .running) (hb : s.pc ∉ s.bp)
    (hd : decode (s.mem.read s.pc.toNat) = .error (.unusedBits w)) : step s = raiseIllegal w s := by
  have hd' : decode s.fetchWord = .error (.unusedBits w) := hd
  simp [step, runLoop, hr, runLoopIteration, hb, hd']

/-- A step without a run in progress is the stuck state. -/
theorem step_of_not_running {s : State} (hr : s.runState ≠ .running) :
    step s = .fault .noRunInProgress := by
  unfold step runLoop
  split <;> simp_all

/-- What a step that answers a next state can be. -/
theorem step_cases {s t : State} (h : step s = .next t) :
    s.runState = .running ∧
    ((s.pc ∈ s.bp ∧ t = s.setRunState .breakpointed) ∨
     (s.pc ∉ s.bp ∧ ∃ i, decode (s.mem.read s.pc.toNat) = .ok i ∧ exec i s = .next t) ∨
     (s.pc ∉ s.bp ∧ ∃ w, decode (s.mem.read s.pc.toNat) = .error (.unusedBits w) ∧
       raiseIllegal w s = .next t)) := by
  by_cases hr : s.runState = .running
  · refine ⟨hr, ?_⟩
    by_cases hb : s.pc ∈ s.bp
    · rw [step_of_break hr hb] at h
      exact .inl ⟨hb, (Host.Outcome.next.inj h).symm⟩
    · cases hd : decode (s.mem.read s.pc.toNat) with
      | ok i =>
        rw [step_of_decode hr hb hd] at h
        exact .inr (.inl ⟨hb, i, rfl, h⟩)
      | error e =>
        obtain ⟨w⟩ := e
        rw [step_of_illegal hr hb hd] at h
        exact .inr (.inr ⟨hb, w, rfl, h⟩)
  · rw [step_of_not_running hr] at h
    cases h

/-- What raising IllegalInstruction does: the increment's own fault at the top of memory, else the
fault that records the word. -/
theorem raiseIllegal_eq (w : Word) (s : State) :
    raiseIllegal w s = .next (s.takeFault
      (if s.pc = 0xFFFF#16 then .addressOutOfRange 0x10000 else .illegalInstruction w)) := by
  unfold raiseIllegal
  rcases pc_cases s with hpc | hpc
  · have hne : s.pc ≠ 0xFFFF#16 := by
      intro he; rw [he] at hpc; exact absurd hpc (by decide)
    rw [atomically_of_error hpc rfl, if_neg hne]
  · rw [atomically_of_top hpc, if_pos hpc]

/-- An Illegal word is reported as itself. -/
theorem decode_error_word {w v : Word} (h : decode w = .error (.unusedBits v)) : v = w := by
  unfold decode decodeUnder at h
  split at h
  · cases h
  · unfold decodeFields checkUnused at h
    repeat' split at h
    all_goals first | (cases h; rfl) | cases h

end Sys2Proof.Machine
end

