-- ==== Sys2Proof/Laws/HostInterface.lean ====
section
/-! SUPPORT. What following a run and a host operation can do, said once. -/

namespace Sys2Proof.Machine

/-! ## Following a run -/

/-- A state with no run in progress stays where it is. -/
theorem runFor_of_not_running {s : State} (h : s.runState ≠ .running) (n : Nat) : runFor n s = s := by
  cases n with
  | zero => rfl
  | succ n => simp [runFor, step_of_not_running h]

/-- Iterations add up. -/
theorem runFor_add (n m : Nat) (s : State) : runFor (n + m) s = runFor m (runFor n s) := by
  induction n generalizing s with
  | zero => simp [runFor]
  | succ n ih =>
    rw [show n + 1 + m = (n + m) + 1 by omega]
    simp only [runFor]
    split
    · exact ih _
    all_goals
      next h => cases m with
        | zero => rfl
        | succ m => simp [runFor, h]

/-- A terminal state is not a running one. -/
theorem RunState.ne_running_of_isTerminal {r : RunState} (h : r.isTerminal = true) : r ≠ .running := by
  rintro rfl; cases h

/-! ## What Run returns -/

theorem State.runReply_of_terminal {s : State} (h : s.runState.isTerminal = true) :
    s.runReply = .runResult s.cost s.runState := by
  unfold State.runReply
  split <;> simp_all [RunState.isTerminal]

theorem State.runReply_of_not_terminal {s : State} (h : s.runState.isTerminal = false) :
    s.runReply = .inProgress := by
  unfold State.runReply
  split <;> simp_all [RunState.isTerminal]

/-! ## Host operations -/

/-- Between runs a host call is its transaction. -/
theorem hostCall_of_not_running {s : State} (h : s.runState ≠ .running) (c : HostCall) :
    hostCall c s = hostTransaction c s := by
  unfold hostCall
  split <;> first | rfl | contradiction

/-- A host call that answers was made between runs. -/
theorem hostCall_next {c : HostCall} {s : State} {p : State × HostReply} (h : hostCall c s = .next p) :
    s.runState ≠ .running ∧ hostTransaction c s = .next p := by
  have hn : s.runState ≠ .running := by
    intro hr
    simp [hostCall, hr] at h
  exact ⟨hn, hostCall_of_not_running hn c ▸ h⟩

/-- Only Run's start has not returned yet. -/
theorem hostCall_inProgress {c : HostCall} {s t : State} (h : hostCall c s = .next (t, .inProgress)) :
    ∃ start, c = .run start ∧ start ≤ 0xFFFF ∧ t = s.startRun start := by
  obtain ⟨-, h⟩ := hostCall_next h
  cases c <;> simp only [hostTransaction] at h
  case run start _ =>
    split at h
    · next hs => cases h; exact ⟨start, rfl, hs, rfl⟩
    · cases h
  all_goals first | cases h | (repeat' split at h) <;> cases h

/-- Run's loop follows its start. -/
theorem hostOperation_of_inProgress {c : HostCall} {s t : State} (n : Nat)
    (h : hostCall c s = .next (t, .inProgress)) :
    hostOperation n c s = .next (runFor n t, (runFor n t).runReply) := by
  rw [hostOperation, h, followRun]

/-- Any other answer stands as it is. -/
theorem hostOperation_of_ne {c : HostCall} {s : State} (n : Nat)
    (h : ∀ t, hostCall c s ≠ .next (t, .inProgress)) : hostOperation n c s = hostCall c s := by
  rw [hostOperation]
  revert h
  cases hostCall c s with
  | next p => obtain ⟨t, r⟩ := p; cases r <;> simp [followRun]
  | fault e => simp [followRun]
  | refused e => simp [followRun]

/-- A Run that has started returns exactly the terminal states its loop reaches. -/
theorem hostReturns_of_inProgress {c : HostCall} {s u t : State} {r : HostReply}
    (h : hostCall c s = .next (u, .inProgress)) :
    HostReturns c s t r ↔
      ∃ n, runFor n u = t ∧ t.runState.isTerminal = true ∧ r = .runResult t.cost t.runState := by
  constructor
  · rintro ⟨hr, n, hn⟩
    rw [hostOperation_of_inProgress n h] at hn
    simp only [Host.Outcome.next.injEq, Prod.mk.injEq] at hn
    obtain ⟨rfl, rfl⟩ := hn
    cases ht : (runFor n u).runState.isTerminal with
    | true => exact ⟨n, rfl, rfl, State.runReply_of_terminal ht⟩
    | false => exact absurd (State.runReply_of_not_terminal ht) hr
  · rintro ⟨n, rfl, ht, rfl⟩
    exact ⟨HostReply.noConfusion, n, by
      rw [hostOperation_of_inProgress n h, State.runReply_of_terminal ht]⟩

end Sys2Proof.Machine
end

