-- ==== Sys2Proof/Tests/Slice0.lean ====
section
/-! SUPPORT. The model's own tests: ill-formed terms refused, words written out from the spec's
formats decoded, one step per instruction on the spec's own vectors (spec/95_test_vectors.md, cited by
id), and for every obligation with hypotheses a concrete witness that meets them. -/

namespace Sys2Proof.Tests

open Sys2Proof Sys2Proof.Machine

/-! ## Helpers -/

/-- The power-on state, at `pc`, with `w` the next word to fetch and a run in progress. -/
def sample (pc w : Word) : State := (State.reset.setPc pc).placeFetchWord w

/-- The state a step answers. -/
def after (s : State) : State :=
  match step s with
  | .next t => t
  | .fault _ => s
  | .refused _ => s

/-- The state an instruction answers. -/
def execNext (i : Instr) (s : State) : State :=
  match exec i s with
  | .next t => t
  | .fault _ => s
  | .refused _ => s

/-- The state a host operation answers. -/
def hostNext (c : HostCall) (s : State) : State :=
  match hostCall c s with
  | .next (t, _) => t
  | .fault _ => s
  | .refused _ => s

/-- What a host operation replies. -/
def replyOf (o : Host.Outcome (State × HostReply) Fault Refusal) : Option HostReply :=
  match o with
  | .next (_, r) => some r
  | .fault _ => none
  | .refused _ => none

theorem sample_aboutToFetch (pc w : Word) : AboutToFetch (sample pc w) :=
  ⟨rfl, List.not_mem_nil⟩

theorem sample_inv : (sample 0x3000 0x1283).Inv := ⟨by decide, by decide, by decide⟩

/-! ## Well-formedness: the one check, and an ill-formed term it refuses -/

theorem test_wellFormed_refuses_halt_word_as_trap : (Instr.trap 0x25).wellFormed = false := by decide

theorem test_wellFormed_accepts_neighbour : (Instr.trap 0x24).wellFormed = true := by decide

/-! ## Decoding: one word per row of the opcode table, written out from R52 or taken from the vectors -/

/-- R52 `0000 n z p iiiiiiiii`: B8's 0x04FF, BRz #255. -/
theorem test_decode_br : decode 0b0000010011111111#16 = .ok (.br false true false 255) := by decide
/-- R52 `0001 DDD SSS 0 00 TTT`: V1's 0x1283. -/
theorem test_decode_addReg : decode 0b0001001010000011#16 = .ok (.addReg .r1 .r2 .r3) := by decide
/-- R52 `0001 DDD SSS 1 iiiii`: V3's 0x1270, ADD R1,R1,#-16. -/
theorem test_decode_addImm : decode 0b0001001001110000#16 = .ok (.addImm .r1 .r1 0b10000) := by decide
/-- R52 `0010 DDD iiiiiiiii`: P3's 0x2002, LD R0,#2. -/
theorem test_decode_ld : decode 0b0010000000000010#16 = .ok (.ld .r0 2) := by decide
/-- R52 `0011 DDD iiiiiiiii`: P2's 0x3604, ST R3,#4. -/
theorem test_decode_st : decode 0b0011011000000100#16 = .ok (.st .r3 4) := by decide
/-- R52 `0100 1 iiiiiiiiiii`: S1's 0x4FFF, JSR #-1. -/
theorem test_decode_jsr : decode 0b0100111111111111#16 = .ok (.jsr (-1)) := by decide
/-- R52 `0100 0 00 SSS 000000`: S4's 0x40C0, JSRR R3. -/
theorem test_decode_jsrr : decode 0b0100000011000000#16 = .ok (.jsrr .r3) := by decide
/-- R52 `0101 DDD SSS 0 00 TTT`: V7's 0x5283. -/
theorem test_decode_andReg : decode 0b0101001010000011#16 = .ok (.andReg .r1 .r2 .r3) := by decide
/-- R52 `0101 DDD SSS 1 iiiii`: V6's 0x54BF, AND R2,R2,#-1. -/
theorem test_decode_andImm : decode 0b0101010010111111#16 = .ok (.andImm .r2 .r2 (-1)) := by decide
/-- R52 `0110 DDD SSS iiiiii`: P2's 0x6440, LDR R2,R1,#0. -/
theorem test_decode_ldr : decode 0b0110010001000000#16 = .ok (.ldr .r2 .r1 0) := by decide
/-- R52 `0111 DDD SSS iiiiii`: L7's 0x705F, STR R0,R1,#31. -/
theorem test_decode_str : decode 0b0111000001011111#16 = .ok (.str .r0 .r1 31) := by decide
/-- R52 `1000 000000000000`. -/
theorem test_decode_rti : decode 0b1000000000000000#16 = .ok .rti := by decide
/-- R52 `1001 DDD SSS 111111`: V10's 0x92BF, NOT R1,R2. -/
theorem test_decode_not : decode 0b1001001010111111#16 = .ok (.not .r1 .r2) := by decide
/-- R52 `1010 DDD iiiiiiiii`: P2's 0xA604, LDI R3,#4. -/
theorem test_decode_ldi : decode 0b1010011000000100#16 = .ok (.ldi .r3 4) := by decide
/-- R52 `1011 DDD iiiiiiiii`: L9's 0xB401, STI R2,#1. -/
theorem test_decode_sti : decode 0b1011010000000001#16 = .ok (.sti .r2 1) := by decide
/-- R52 `1100 000 SSS 000000`: J1's 0xC080, JMP R2. -/
theorem test_decode_jmp : decode 0b1100000010000000#16 = .ok (.jmp .r2) := by decide
/-- R52 `1101 xxxxxxxxxxxx` (R56). -/
theorem test_decode_reserved : decode 0b1101000000000101#16 = .ok (.reserved 5) := by decide
/-- R52 `1110 DDD iiiiiiiii`: L11's 0xEBFE, LEA R5,#-2. -/
theorem test_decode_lea : decode 0b1110101111111110#16 = .ok (.lea .r5 (-2)) := by decide
/-- R52 `1111 0000 vvvvvvvv`: W9's 0xF099. -/
theorem test_decode_trap : decode 0b1111000010011001#16 = .ok (.trap 0x99) := by decide
/-- R58: the halt word, before TRAP's pattern. -/
theorem test_decode_halt : decode 0b1111000000100101#16 = .ok .halt := by decide

/-- V11, V12, J3, T6 and X8: unused bits that differ are Illegal. -/
theorem test_decode_refuses_unused_bits :
    decode 0x9080#16 = .error (.unusedBits 0x9080#16) ∧
    decode 0x1008#16 = .error (.unusedBits 0x1008#16) ∧
    decode 0xC081#16 = .error (.unusedBits 0xC081#16) ∧
    decode 0x8001#16 = .error (.unusedBits 0x8001#16) ∧
    decode 0xF120#16 = .error (.unusedBits 0xF120#16) := by decide

/-- V11 and V12 with STRICT_DECODE = false. -/
theorem test_decode_lax :
    decodeFields false 0x9080#16 = .ok (.not .r0 .r2) ∧
    decodeFields false 0x1008#16 = .ok (.addReg .r0 .r0 .r0) := by decide

/-- The table's numbering is the word's own (R49), and a step from reset runs the placed word. -/
theorem test_table_word :
    decodeTableWord 16 0x1283 = some (.addReg .r1 .r2 .r3) ∧ decodeTableWord 16 0x9080 = none := by
  decide

theorem test_withFetchWord_runs_the_word :
    step (State.reset.withFetchWord 16 0x5283) =
      exec (.andReg .r1 .r2 .r3) (State.reset.withFetchWord 16 0x5283) := rfl

/-! ## One step, on the spec's vectors -/

/-- V1: 0x7FFF + 1 wraps to 0x8000 and sets N. -/
theorem test_add_wraps_to_negative :
    let t := after (((sample 0x3000 0x1283).setReg .r2 0x7FFF).setReg .r3 1)
    t.reg .r1 = 0x8000 ∧ t.psr = 0b100 ∧ t.pc = 0x3001 := by decide

/-- V13, W4: the mode bit and the reserved bits are kept. -/
theorem test_addImm_keeps_reserved_bits :
    let t := after ((sample 0x3000 0x12A1).setPsr 0xC706)
    t.reg .r1 = 1 ∧ t.psr = 0xC701 := by decide

/-- V7. -/
theorem test_and :
    let t := after (((sample 0x3000 0x5283).setReg .r2 0xF0F0).setReg .r3 0x0FF0)
    t.reg .r1 = 0x00F0 ∧ t.psr = 0b001 := by decide

/-- V8: a negative immediate extends to ones. -/
theorem test_andImm_sign_extends :
    let t := after ((sample 0x3000 0x52B0).setReg .r2 0x1234)
    t.reg .r1 = 0x1230 ∧ t.psr = 0b001 := by decide

/-- V10. -/
theorem test_not :
    let t := after ((sample 0x3000 0x92BF).setReg .r2 0xFFFF)
    t.reg .r1 = 0 ∧ t.psr = 0b010 := by decide

/-- W3: BRnzp #-256 at 0x3100 with P set. -/
theorem test_br_taken_backwards : (after ((sample 0x3100 0x0F00).setPsr 1)).pc = 0x3001 := by decide

/-- B6 and B7: an out-of-range target faults only when taken. -/
theorem test_br_out_of_range :
    (after ((sample 0x0010 0x0300).setPsr 1)).runState = .faulted (.addressOutOfRange (-239)) ∧
    (after ((sample 0x0010 0x0300).setPsr 1)).pc = 0x0010 ∧
    (after ((sample 0x0010 0x0300).setPsr 2)).pc = 0x0011 ∧
    (after ((sample 0x0010 0x0300).setPsr 2)).runState = .running := by decide

/-- J2: RET. -/
theorem test_jmp_ret : (after ((sample 0x3000 0xC1C0).setReg .r7 0x3003)).pc = 0x3003 := by decide

/-- S1. -/
theorem test_jsr_links :
    let t := after (sample 0x3000 0x4FFF)
    t.reg .r7 = 0x3001 ∧ t.pc = 0x3000 := by decide

/-- S2: the target is checked before R7 is written. -/
theorem test_jsr_out_of_range :
    let t := after ((sample 0xFE00 0x4BFF).setReg .r7 0x1111)
    t.runState = .faulted (.addressOutOfRange 0x10200) ∧ t.reg .r7 = 0x1111 ∧ t.pc = 0xFE00 := by
  decide

/-- S3 and S4: R7 is written before BaseR is read. -/
theorem test_jsrr_order :
    (after ((sample 0x3000 0x41C0).setReg .r7 0x5000)).pc = 0x3001 ∧
    (after (sample 0x3000 0x40C0)).reg .r7 = 0x3001 ∧
    (after (sample 0x3000 0x40C0)).pc = 0 := by decide

/-- T4: the last stack address that works. -/
theorem test_rti_pops :
    let t := after ((((sample 0x3000 0x8000).setReg .r6 0xFFFD).memWrite 0xFFFD 0x0200).memWrite
      0xFFFE 0x0007)
    t.pc = 0x0200 ∧ t.psr = 7 ∧ t.reg .r6 = 0xFFFF := by decide

/-- T2 and T3. -/
theorem test_rti_faults :
    (after ((sample 0x3000 0x8000).setPsr 0x8002)).runState = .faulted .privilegeFault ∧
    (after ((sample 0x3000 0x8000).setReg .r6 0xFFFE)).runState =
      .faulted (.addressOutOfRange 0x10000) := by decide

/-- P2's LD-shaped L1: a zero loads and sets Z. -/
theorem test_ld :
    let t := after (((sample 0x3000 0x2100).setReg .r0 5).memWrite 0x2F01 0)
    t.reg .r0 = 0 ∧ t.psr = 0b010 := by decide

/-- L2. -/
theorem test_ld_out_of_range :
    (after (sample 0x0005 0x2100)).runState = .faulted (.addressOutOfRange (-250)) := by decide

/-- L3: LDI leaves the condition codes. -/
theorem test_ldi_keeps_flags :
    let t := after ((((sample 0x3000 0xA200).memWrite 0x3001 0xFFFF).memWrite 0xFFFF 0x1234).setPsr 4)
    t.reg .r1 = 0x1234 ∧ t.psr = 4 := by decide

/-- L5: the destination is the base. -/
theorem test_ldr_base_is_destination :
    let t := after ((sample 0x3000 0x627F).setReg .r1 0x4001)
    t.reg .r1 = 0 ∧ t.psr = 0b010 := by decide

/-- L4. -/
theorem test_ldr_out_of_range :
    (after (sample 0x3000 0x627F)).runState = .faulted (.addressOutOfRange (-1)) := by decide

/-- L8: the store is what the next fetch reads. -/
theorem test_st_overwrites_next :
    let t := after ((sample 0x3000 0x3000).memWrite 0x3001 0x1261)
    t.mem.read 0x3001 = 0 ∧ t.fetchWord = 0 := by decide

/-- L9: the pointer is overwritten by the data. -/
theorem test_sti_overwrites_pointer :
    (after (((sample 0x3000 0xB401).memWrite 0x3002 0x3002).setReg .r2 0x00AA)).mem.read 0x3002 =
      0x00AA := by decide

/-- L6. -/
theorem test_str : (after ((sample 0x3000 0x7240).setReg .r1 0x4000)).mem.read 0x4000 = 0x4000 := by
  decide

/-- L7. -/
theorem test_str_out_of_range :
    let s := (sample 0x3000 0x705F).setReg .r1 0xFFF0
    (after s).runState = .faulted (.addressOutOfRange 0x1000F) ∧ (after s).mem = s.mem := by decide

/-- L12: the highest address. -/
theorem test_lea_sets_flags :
    let t := after (sample 0xFFFE 0xE000)
    t.reg .r0 = 0xFFFF ∧ t.psr = 0b100 := by decide

/-- L11. -/
theorem test_lea_out_of_range :
    (after (sample 0 0xEBFE)).runState = .faulted (.addressOutOfRange (-1)) := by decide

/-- X1, X3 and X6: the three services. -/
theorem test_trap_services :
    (let t := after { (sample 0x3000 0xF020) with input := [0x41, 0x42] }
     t.reg .r0 = 0x41 ∧ t.cursor = 1 ∧ t.reg .r7 = 0x3001) ∧
    (after ((sample 0x3000 0xF021).setReg .r0 0x0141)).output = [0x41] ∧
    (after (((sample 0x3000 0xF022).setReg .r0 0x4000).memWrite 0x4000 0x0100)).output = [0] := by
  decide

/-- X2, X5 and X7: their faults. -/
theorem test_trap_faults :
    (after { (sample 0x3000 0xF020) with input := [0x41], cursor := 1 }).runState =
      .faulted .inputExhausted ∧
    (after ((((sample 0x3000 0xF022).setReg .r0 0xFFFE).memWrite 0xFFFE 0x41).memWrite
      0xFFFF 0x42)).runState = .faulted (.addressOutOfRange 0x10000) ∧
    (after (sample 0x3000 0xF000)).runState = .faulted (.unsupportedTrap 0) := by decide

/-- C5. -/
theorem test_reserved :
    (after (sample 0x3000 0xD000)).runState = .faulted (.illegalInstruction 0xD000) := by decide

/-- C1 and C2: the word at 0xFFFF is never executed, but halts. -/
theorem test_halt_and_top_of_memory :
    (after (sample 0xFFFF 0xF025)).runState = .halted ∧
    (after (sample 0xFFFF 0x1020)).runState = .faulted (.addressOutOfRange 0x10000) := by decide

/-- C3, C4: a breakpoint stops before the halt test; a Run started on it stops at once. -/
theorem test_breakpoint_first :
    (after (hostNext (.run 0x3000) (hostNext (.addBreakpoint 0x3000)
      (hostNext (.initializeCore 0x3000 [0xF025]) State.reset)))).runState = .breakpointed := by decide

/-- C6 and C7: the top of memory. -/
theorem test_initialize :
    hostCall (.initializeCore 0xFFFF [1, 2]) State.reset = .next (State.reset, .addressOutOfRange) ∧
    (hostNext (.initializeCore 0xFFFE [1, 2]) State.reset).mem = [(0xFFFE, 1), (0xFFFF, 2)] ∧
    (hostNext (.initializeCore 0xFFFE [1, 2]) State.reset).pc = 0xFFFE :=
  ⟨rfl, by decide, by decide⟩

/-- W8, W9 and C1: what Run returns from a halt word, an unsupported trap and the top of memory. -/
theorem test_run_returns_cost_and_terminal_state :
    replyOf (hostOperation 1 (.run 0x3000)
      (hostNext (.initializeCore 0x3000 [0xF025]) State.reset)) = some (.runResult 0 .halted) ∧
    replyOf (hostOperation 1 (.run 0x3000)
      (hostNext (.initializeCore 0x3000 [0xF099]) State.reset)) =
        some (.runResult 0 (.faulted (.unsupportedTrap 0x99))) ∧
    replyOf (hostOperation 1 (.run 0xFFFF)
      (hostNext (.initializeCore 0xFFFF [0x1020]) State.reset)) =
        some (.runResult 0 (.faulted (.addressOutOfRange 0x10000))) := by decide

/-- R65: a Run whose loop has not ended has returned nothing. -/
theorem test_run_not_returned :
    replyOf (hostOperation 0 (.run 0x3000) State.reset) = some .inProgress := by decide

/-! ## Witnesses: for each obligation with hypotheses, states and operands that meet them, clause by
clause, at the values where the clauses meet -/

/-- The last pc at which an instruction can execute, and the first at which none can. -/
theorem fetchable_last (w : Word) : Fetchable (sample 0xFFFE w) := by
  show (0xFFFE#16).toNat < 0xFFFF; decide

theorem not_fetchable_top (w : Word) : ¬ Fetchable (sample 0xFFFF w) := by
  show ¬ (0xFFFF#16).toNat < 0xFFFF; decide

theorem fetchable_mid (w : Word) : Fetchable (sample 0x3000 w) := by
  show (0x3000#16).toNat < 0xFFFF; decide

theorem witness_AddWritesSumAndFlags : Fetchable (sample 0xFFFE 0x1283) ∧
    (0x1008#16).extractLsb' 12 4 = 0b0001#4 ∧ (0x1008#16).getLsbD 5 = false ∧
    (0x1008#16).extractLsb' 3 2 ≠ 0 := ⟨fetchable_last _, by decide⟩

theorem witness_AndWritesConjunctionAndFlags : Fetchable (sample 0xFFFE 0x5283) ∧
    (0x5018#16).extractLsb' 12 4 = 0b0101#4 ∧ (0x5018#16).getLsbD 5 = false ∧
    (0x5018#16).extractLsb' 3 2 ≠ 0 := ⟨fetchable_last _, by decide⟩

theorem witness_NotWritesComplementAndFlags : Fetchable (sample 0xFFFE 0x92BF) ∧
    (0x92BE#16).extractLsb' 12 4 = 0b1001#4 ∧ (0x92BE#16).extractLsb' 0 6 ≠ 0b111111#6 :=
  ⟨fetchable_last _, by decide⟩

theorem witness_OnlyDocumentedInstructionsWritePsr :
    (writesPsr (.ldi .r1 0) = false ∧
      exec (.ldi .r1 0) (sample 0x3000 0xA200) = .next (execNext (.ldi .r1 0) (sample 0x3000 0xA200))) ∧
    (Instr.lea .r0 0 ≠ .rti ∧ writesPsr (.lea .r0 0) = true ∧
      (sample 0xFFFE 0xE000).runState = .running ∧
      exec (.lea .r0 0) (sample 0xFFFE 0xE000) = .next (execNext (.lea .r0 0) (sample 0xFFFE 0xE000)) ∧
      (execNext (.lea .r0 0) (sample 0xFFFE 0xE000)).runState = .running) :=
  ⟨⟨by decide, rfl⟩, by decide, by decide, rfl, rfl, by decide⟩

theorem witness_OnlyBranchReadsConditionCodes :
    ((∀ n z p off, Instr.rti ≠ .br n z p off) ∧
      (0x7FFF#16).getLsbD 15 = (sample 0x3000 0x8000).psr.getLsbD 15 ∧
      exec .rti (sample 0x3000 0x8000) = .next (execNext .rti (sample 0x3000 0x8000))) ∧
    ((∀ n z p off, Instr.addReg .r1 .r2 .r3 ≠ .br n z p off) ∧
      exec (.addReg .r1 .r2 .r3) (sample 0x3000 0x1283) =
        .next (execNext (.addReg .r1 .r2 .r3) (sample 0x3000 0x1283))) :=
  ⟨⟨fun _ _ _ _ h => Instr.noConfusion h, by decide, rfl⟩,
    fun _ _ _ _ h => Instr.noConfusion h, rfl⟩

/-- The targets 0 and 0xFFFF are addresses; -1 and 0x10000 are not; a named condition code is set, or
none is. -/
theorem witness_BranchFollowsConditionCodes :
    let s := (sample 0xFFFE 0x0FFF).setPsr 1
    let u := (sample 0x00FF 0x0F00).setPsr 4
    let v := (sample 0x00FE 0x0F00).setPsr 2
    Fetchable s ∧ Fetchable u ∧ Fetchable v ∧
    s.psr.getLsbD 0 = true ∧ u.psr.getLsbD 2 = true ∧ v.psr.getLsbD 1 = true ∧
    ((0xFFFF#16).toNat : Int) = pcRelativeSum s (0 : BitVec 9) ∧
    OutOfRange (pcRelativeSum s (1 : BitVec 9)) ∧
    ((0x0000#16).toNat : Int) = pcRelativeSum u (-256 : BitVec 9) ∧
    OutOfRange (pcRelativeSum v (-256 : BitVec 9)) ∧
    ¬ ((true = true ∧ s.psr.getLsbD 2 = true) ∨ (true = true ∧ s.psr.getLsbD 1 = true) ∨
      (false = true ∧ s.psr.getLsbD 0 = true)) := by
  unfold Fetchable OutOfRange pcRelativeSum; decide

theorem witness_JumpGoesToRegister : Fetchable (sample 0xFFFE 0xC1C0) ∧
    ((0xC081#16).extractLsb' 12 4 = 0b1100#4 ∧ (0xC081#16).extractLsb' 0 6 ≠ 0) ∧
    ((0xC280#16).extractLsb' 12 4 = 0b1100#4 ∧ (0xC280#16).extractLsb' 9 3 ≠ 0) :=
  ⟨fetchable_last _, by decide⟩

theorem witness_JsrLinksAndJumps :
    let s := sample 0xFFFE 0x4800
    let u := sample 0x03FF 0x4C00
    let v := sample 0x03FE 0x4C00
    Fetchable s ∧ Fetchable u ∧ Fetchable v ∧
    ((0xFFFF#16).toNat : Int) = pcRelativeSum s (0 : BitVec 11) ∧
    OutOfRange (pcRelativeSum s (1 : BitVec 11)) ∧
    ((0x0000#16).toNat : Int) = pcRelativeSum u (-1024 : BitVec 11) ∧
    OutOfRange (pcRelativeSum v (-1024 : BitVec 11)) := by
  unfold Fetchable OutOfRange pcRelativeSum; decide

theorem witness_JsrrLinksBeforeReadingBase : Fetchable (sample 0xFFFE 0x41C0) ∧ Reg.r6 ≠ .r7 ∧
    ((0x42C0#16).extractLsb' 12 4 = 0b0100#4 ∧ (0x42C0#16).getLsbD 11 = false ∧
      (0x42C0#16).extractLsb' 9 2 ≠ 0) ∧
    ((0x40C1#16).extractLsb' 12 4 = 0b0100#4 ∧ (0x40C1#16).getLsbD 11 = false ∧
      (0x40C1#16).extractLsb' 0 6 ≠ 0) := ⟨fetchable_last _, by decide⟩

/-- M = 0 with R6 = 0xFFFD, the last that has room; M = 0 with R6 = 0xFFFE, the first that has not;
M = 1. -/
theorem witness_RtiPopsPcAndPsr :
    let s := (sample 0xFFFE 0x8000).setReg .r6 0xFFFD
    let u := (sample 0xFFFE 0x8000).setReg .r6 0xFFFE
    let v := (sample 0xFFFE 0x8000).setPsr 0x8000
    (Fetchable s ∧ s.psr.getLsbD 15 = false ∧ (s.reg .r6).toNat ≤ 0xFFFD) ∧
    (Fetchable u ∧ u.psr.getLsbD 15 = false ∧ 0xFFFE ≤ (u.reg .r6).toNat) ∧
    (Fetchable v ∧ v.psr.getLsbD 15 = true) ∧
    (0x8001#16).extractLsb' 12 4 = 0b1000#4 ∧ (0x8001#16) ≠ 0x8000#16 := by
  unfold Fetchable; decide

/-- For LD, LDI, ST, STI and LEA: the addresses 0 and 0xFFFF are in range, -1 and 0x10000 are not. -/
theorem witness_pcRelative :
    let s := sample 0xFFFE 0x2000
    let u := sample 0x00FF 0x2100
    let v := sample 0x00FE 0x2100
    Fetchable s ∧ Fetchable u ∧ Fetchable v ∧
    ((0xFFFF#16).toNat : Int) = pcRelativeSum s (0 : BitVec 9) ∧
    OutOfRange (pcRelativeSum s (1 : BitVec 9)) ∧
    ((0x0000#16).toNat : Int) = pcRelativeSum u (-256 : BitVec 9) ∧
    OutOfRange (pcRelativeSum v (-256 : BitVec 9)) := by
  unfold Fetchable OutOfRange pcRelativeSum; decide

theorem witness_LdLoadsPcRelative : Fetchable (sample 0xFFFE 0x2000) ∧
    ((0xFFFF#16).toNat : Int) = pcRelativeSum (sample 0xFFFE 0x2000) (0 : BitVec 9) ∧
    OutOfRange (pcRelativeSum (sample 0xFFFE 0x2000) (1 : BitVec 9)) := by
  unfold Fetchable OutOfRange pcRelativeSum; decide

theorem witness_LdiLoadsThroughPointer : Fetchable (sample 0xFFFE 0xA000) ∧
    ((0xFFFF#16).toNat : Int) = pcRelativeSum (sample 0xFFFE 0xA000) (0 : BitVec 9) ∧
    OutOfRange (pcRelativeSum (sample 0xFFFE 0xA000) (1 : BitVec 9)) := by
  unfold Fetchable OutOfRange pcRelativeSum; decide

theorem witness_StStoresPcRelative : Fetchable (sample 0xFFFE 0x3000) ∧
    ((0xFFFF#16).toNat : Int) = pcRelativeSum (sample 0xFFFE 0x3000) (0 : BitVec 9) ∧
    OutOfRange (pcRelativeSum (sample 0xFFFE 0x3000) (1 : BitVec 9)) := by
  unfold Fetchable OutOfRange pcRelativeSum; decide

theorem witness_StiStoresThroughPointer : Fetchable (sample 0xFFFE 0xB000) ∧
    ((0xFFFF#16).toNat : Int) = pcRelativeSum (sample 0xFFFE 0xB000) (0 : BitVec 9) ∧
    OutOfRange (pcRelativeSum (sample 0xFFFE 0xB000) (1 : BitVec 9)) := by
  unfold Fetchable OutOfRange pcRelativeSum; decide

theorem witness_LeaWritesAddressAndFlags : Fetchable (sample 0xFFFE 0xE000) ∧
    ((0xFFFF#16).toNat : Int) = pcRelativeSum (sample 0xFFFE 0xE000) (0 : BitVec 9) ∧
    OutOfRange (pcRelativeSum (sample 0xFFFE 0xE000) (1 : BitVec 9)) := by
  unfold Fetchable OutOfRange pcRelativeSum; decide

theorem witness_LdrLoadsBaseOffset :
    let s := (sample 0xFFFE 0x6000).setReg .r1 0xFFE0
    let u := (sample 0xFFFE 0x6000).setReg .r1 0x0020
    Fetchable s ∧ Fetchable u ∧
    ((0xFFFF#16).toNat : Int) = baseOffsetSum s .r1 31 ∧
    ((0x0000#16).toNat : Int) = baseOffsetSum u .r1 (-32) ∧
    OutOfRange (baseOffsetSum ((sample 0xFFFE 0x6000).setReg .r1 0xFFE1) .r1 31) ∧
    OutOfRange (baseOffsetSum ((sample 0xFFFE 0x6000).setReg .r1 0x001F) .r1 (-32)) := by
  unfold Fetchable OutOfRange baseOffsetSum; decide

theorem witness_StrStoresBaseOffset :
    let s := (sample 0xFFFE 0x7000).setReg .r1 0xFFE0
    let u := (sample 0xFFFE 0x7000).setReg .r1 0x0020
    Fetchable s ∧ Fetchable u ∧
    ((0xFFFF#16).toNat : Int) = baseOffsetSum s .r1 31 ∧
    ((0x0000#16).toNat : Int) = baseOffsetSum u .r1 (-32) ∧
    OutOfRange (baseOffsetSum ((sample 0xFFFE 0x7000).setReg .r1 0xFFE1) .r1 31) ∧
    OutOfRange (baseOffsetSum ((sample 0xFFFE 0x7000).setReg .r1 0x001F) .r1 (-32)) := by
  unfold Fetchable OutOfRange baseOffsetSum; decide

/-- One character left, and none. -/
theorem witness_TrapInputReadsOneCharacter :
    let s : State := { sample 0xFFFE 0xF020 with input := [0x41, 0x42], cursor := 1 }
    let u : State := { sample 0xFFFE 0xF020 with input := [0x41, 0x42], cursor := 2 }
    Fetchable s ∧ s.input[s.cursor]? = some 0x42 ∧ Fetchable u ∧ u.input.length ≤ u.cursor := by
  unfold Fetchable; decide

theorem witness_TrapOutputAppendsCharacter : Fetchable (sample 0xFFFE 0xF021) := fetchable_last _

/-- The terminator at 0xFFFF, the last address that can hold it; no terminator from 0xFFFE on. -/
theorem witness_TrapStringAppendsUntilZero :
    let s := ((sample 0x3000 0xF022).setReg .r0 0xFFFE).memWrite 0xFFFE 0x41
    let u := s.memWrite 0xFFFF 0x42
    (Fetchable s ∧ (s.reg .r0).toNat + 1 ≤ 0xFFFF ∧
      (∀ i, i < 1 → s.mem.read ((s.reg .r0).toNat + i) ≠ 0) ∧
      s.mem.read ((s.reg .r0).toNat + 1) = 0) ∧
    Fetchable u ∧ ∀ a, (u.reg .r0).toNat ≤ a → a ≤ 0xFFFF → u.mem.read a ≠ 0 := by
  refine ⟨by unfold Fetchable; decide, by unfold Fetchable; decide, fun a h1 h2 => ?_⟩
  have h1 : 0xFFFE ≤ a := h1
  rcases (by omega : a = 0xFFFE ∨ a = 0xFFFF) with rfl | rfl <;> decide

theorem witness_UnsupportedTrapLeavesState :
    Fetchable (sample 0xFFFE 0xF023) ∧ (0x23 : BitVec 8) ≠ 0x20 ∧ (0x23 : BitVec 8) ≠ 0x21 ∧
      (0x23 : BitVec 8) ≠ 0x22 := ⟨fetchable_last _, by decide⟩

theorem witness_TrapSavesReturnAddress :
    ((sample 0x3000 0xF021).runState = .running ∧
      exec (.trap 0x21) (sample 0x3000 0xF021) = .next (execNext (.trap 0x21) (sample 0x3000 0xF021)) ∧
      (execNext (.trap 0x21) (sample 0x3000 0xF021)).runState = .running) ∧
    (0x24 : BitVec 8) ≠ 0x25 ∧
    (0xF120#16).extractLsb' 12 4 = 0b1111#4 ∧ (0xF120#16).extractLsb' 8 4 ≠ 0 :=
  ⟨⟨rfl, rfl, by decide⟩, by decide⟩

theorem witness_HaltWordStopsRun : AboutToFetch (sample 0xFFFF 0xF025) ∧
    (sample 0xFFFF 0xF025).mem.read (sample 0xFFFF 0xF025).pc.toNat = 0xF025#16 :=
  ⟨sample_aboutToFetch _ _, by decide⟩

theorem witness_ReservedOpcodeIsIllegal :
    Fetchable (sample 0xFFFE 0xDFFF) ∧ AboutToFetch (sample 0xFFFE 0xDFFF) ∧
    (sample 0xFFFE 0xDFFF).mem.read (sample 0xFFFE 0xDFFF).pc.toNat = 0xDFFF ∧
    (0xDFFF#16).extractLsb' 12 4 = 0b1101#4 :=
  ⟨fetchable_last _, sample_aboutToFetch _ _, by decide⟩

theorem witness_BreakpointStopsRun :
    let s : State := { sample 0x3000 0xF025 with bp := [0x3000] }
    let r : State := { State.reset with bp := [0xFFFF] }
    (s.runState = .running ∧ s.pc ∈ s.bp ∧ step s = .next (after s)) ∧
    BitVec.ofNat 16 0xFFFF ∈ r.bp ∧
    hostCall (.run 0xFFFF) r = .next (hostNext (.run 0xFFFF) r, .inProgress) ∧ (0xFFFF : Word) ∈ r.bp :=
  ⟨⟨rfl, by decide, rfl⟩, by decide, rfl, by decide⟩

theorem witness_PcDoesNotWrap :
    (AboutToFetch (sample 0xFFFF 0x1020) ∧ (sample 0xFFFF 0x1020).pc = 0xFFFF#16 ∧
      (sample 0xFFFF 0x1020).mem.read 0xFFFF ≠ 0xF025#16) ∧
    Instr.rti ≠ .halt ∧
    (let s := (sample 0xFFFE 0x0E01).setPsr 2
     Fetchable s ∧ (true = true ∧ s.psr.getLsbD 1 = true) ∧
       OutOfRange (pcRelativeSum s (1 : BitVec 9)) ∧ OutOfRange (pcRelativeSum s (1 : BitVec 11))) :=
  ⟨⟨sample_aboutToFetch _ _, by decide⟩, by decide, by
    unfold Fetchable OutOfRange pcRelativeSum; decide⟩

theorem witness_UnusedBitsAreStrict :
    0x1008#16 = 0b0001#4 ++ Reg.r0.bits ++ Reg.r0.bits ++ 0b0#1 ++ 0b01#2 ++ Reg.r0.bits ∧
    0x5008#16 = 0b0101#4 ++ Reg.r0.bits ++ Reg.r0.bits ++ 0b0#1 ++ 0b01#2 ++ Reg.r0.bits ∧
    0x41C1#16 = 0b0100#4 ++ 0b0#1 ++ 0b00#2 ++ Reg.r7.bits ++ 0b000001#6 ∧
    0x8001#16 = 0b1000#4 ++ 0b000000000001#12 ∧
    0x9080#16 = 0b1001#4 ++ Reg.r0.bits ++ Reg.r2.bits ++ 0b000000#6 ∧
    0xC081#16 = 0b1100#4 ++ 0b000#3 ++ Reg.r2.bits ++ 0b000001#6 ∧
    0xF120#16 = 0b1111#4 ++ 0b0001#4 ++ 0x20#8 := by decide

/-- A state that a step leaves faulted, one for each kind of fault. -/
theorem witness_faults :
    (step ((sample 0x3000 0x8000).setPsr 0x8000) = .next (after ((sample 0x3000 0x8000).setPsr 0x8000)) ∧
      (after ((sample 0x3000 0x8000).setPsr 0x8000)).runState = .faulted .privilegeFault) ∧
    (step (sample 0x3000 0xF099) = .next (after (sample 0x3000 0xF099)) ∧
      (after (sample 0x3000 0xF099)).runState = .faulted (.unsupportedTrap 0x99)) ∧
    (step (sample 0x3000 0xF020) = .next (after (sample 0x3000 0xF020)) ∧
      (after (sample 0x3000 0xF020)).runState = .faulted .inputExhausted) ∧
    (step (sample 0x0005 0x2100) = .next (after (sample 0x0005 0x2100)) ∧
      (after (sample 0x0005 0x2100)).runState = .faulted (.addressOutOfRange (-250))) ∧
    (step (sample 0x3000 0x9080) = .next (after (sample 0x3000 0x9080)) ∧
      (after (sample 0x3000 0x9080)).runState = .faulted (.illegalInstruction 0x9080)) :=
  ⟨⟨rfl, by decide⟩, ⟨rfl, by decide⟩, ⟨rfl, by decide⟩, ⟨rfl, by decide⟩, rfl, by decide⟩

theorem witness_FaultsArePrecise :
    (sample 0x3000 0xF099).runState = .running ∧
    step (sample 0x3000 0xF099) = .next (after (sample 0x3000 0xF099)) ∧
    (after (sample 0x3000 0xF099)).runState = .faulted (.unsupportedTrap 0x99) :=
  ⟨rfl, rfl, by decide⟩

theorem witness_FaultKindsHaveTheirCauses :
    (sample 0x0005 0x2100).runState = .running ∧
    step (sample 0x0005 0x2100) = .next (after (sample 0x0005 0x2100)) ∧
    (after (sample 0x0005 0x2100)).runState = .faulted (.addressOutOfRange (-250)) :=
  ⟨rfl, rfl, by decide⟩

theorem witness_EventsHaveOneOrder :
    let s := (sample 0x3000 0x8000).setPsr 0x8000
    (s.runState = .running ∧ Fetchable s ∧ s.psr.getLsbD 15 = true) ∧
    Fetchable (sample 0x3000 0xF020) ∧ (sample 0x3000 0xF020).runState = .running ∧
    exec (.trap 0x20) (sample 0x3000 0xF020) = .next (execNext (.trap 0x20) (sample 0x3000 0xF020)) ∧
    (execNext (.trap 0x20) (sample 0x3000 0xF020)).runState = .faulted .inputExhausted :=
  ⟨⟨rfl, fetchable_mid 0x8000, by decide⟩, fetchable_mid _, rfl, rfl, by decide⟩

theorem witness_ModeBitBelongsToRti :
    let s := (sample 0xFFFE 0x8000).setReg .r6 0xFFFD
    let v := (sample 0xFFFE 0x8000).setPsr 0x8000
    (Instr.not .r1 .r2 ≠ .rti ∧ exec (.not .r1 .r2) s = .next (execNext (.not .r1 .r2) s)) ∧
    (Fetchable v ∧ v.psr.getLsbD 15 = true) ∧
    Fetchable s ∧ s.psr.getLsbD 15 = false ∧ (s.reg .r6).toNat ≤ 0xFFFD :=
  ⟨⟨by decide, rfl⟩, by unfold Fetchable; decide, by unfold Fetchable; decide⟩

/-- A TRAP that completes, and one that faults. -/
theorem witness_CostIsBaseCostPlusTrapCost :
    let s := ((sample 0x3000 0xF022).setReg .r0 0x4000).memWrite 0x4000 0x0041
    let u := sample 0x3000 0xF020
    (s.runState = .running ∧ exec (.trap 0x22) s = .next (execNext (.trap 0x22) s) ∧
      (execNext (.trap 0x22) s).runState = .running) ∧
    (exec (.trap 0x20) u = .next (execNext (.trap 0x20) u) ∧
      (execNext (.trap 0x20) u).runState ≠ .running) :=
  ⟨⟨rfl, rfl, by decide⟩, rfl, by decide⟩

theorem witness_CostIsNeverRead :
    step (sample 0x3000 0x1283) = .next (after (sample 0x3000 0x1283)) := rfl

/-- W5: ST R1,#5 at 0x3000, then LD R2,#4 at 0x3001. -/
theorem witness_StThenLdYieldsStoredWord :
    let s := (sample 0x3000 0x3205).setReg .r1 0xBEEF
    let t := execNext (.st .r1 5) s
    exec (.st .r1 5) s = .next t ∧ s.runState = .running ∧ t.runState = .running ∧ Fetchable t ∧
      pcRelativeSum t (4 : BitVec 9) = pcRelativeSum s (5 : BitVec 9) :=
  ⟨rfl, rfl, by decide, by unfold Fetchable; decide, by unfold pcRelativeSum; decide⟩

theorem witness_OnlyStoresWriteMemory :
    writesMemory .rti = false ∧
    exec .rti (sample 0x3000 0x8000) = .next (execNext .rti (sample 0x3000 0x8000)) :=
  ⟨by decide, rfl⟩

/-- A store to A + 1 in each of the three ways, of the word 0x0000, a BR that never branches. -/
theorem witness_StoreIsSeenByNextFetch :
    (let s := sample 0x3000 0x3000
     let t := execNext (.st .r0 0) s
     s.runState = .running ∧ exec (.st .r0 0) s = .next t ∧ t.runState = .running ∧
       (t.pc.toNat : Int) = pcRelativeSum s (0 : BitVec 9) ∧ t.pc ∉ t.bp ∧
       decode (s.reg .r0) = .ok (.br false false false 0)) ∧
    (let s := (sample 0x3000 0xB005).memWrite 0x3006 0x3001
     let t := execNext (.sti .r0 5) s
     exec (.sti .r0 5) s = .next t ∧ t.runState = .running ∧
       ((0x3006#16).toNat : Int) = pcRelativeSum s (5 : BitVec 9) ∧
       t.pc = s.mem.read (0x3006#16).toNat ∧ t.pc ∉ t.bp) ∧
    (let s := (sample 0x3000 0x7040).setReg .r1 0x3001
     let t := execNext (.str .r0 .r1 0) s
     exec (.str .r0 .r1 0) s = .next t ∧ t.runState = .running ∧
       (t.pc.toNat : Int) = baseOffsetSum s .r1 0 ∧ t.pc ∉ t.bp) := by
  refine ⟨⟨rfl, rfl, ?_⟩, ⟨rfl, ?_⟩, rfl, ?_⟩
  · unfold pcRelativeSum; decide
  · unfold pcRelativeSum; decide
  · unfold baseOffsetSum; decide

theorem witness_OnlyNamedRegistersAreWritten :
    exec (.trap 0x21) (sample 0x3000 0xF021) = .next (execNext (.trap 0x21) (sample 0x3000 0xF021)) ∧
    Reg.r0 ∉ destinations (.trap 0x21) := ⟨rfl, by decide⟩

/-- The two sides of the sign at width 1 and at width 9 (W3's field). -/
theorem witness_SignExtensionByTopBit :
    0 < 1 ∧ sext (0b1#1) = -1 ∧ sext (0b0#1) = 0 ∧ sext (0b100000000#9) = -256 ∧
      sext (0b011111111#9) = 255 := by decide

theorem witness_DecodeOfEncode : (Instr.trap 0x26).wellFormed = true ∧
    decodeUnder false (encode (.trap 0x26)) = .ok (.trap 0x26) := by decide

theorem witness_EncodeOfDecode : decode 0xF024#16 = .ok (.trap 0x24) := by decide

theorem witness_StepRunsDecodedInstruction :
    (AboutToFetch (sample 0x3000 0x1283) ∧
      decode ((sample 0x3000 0x1283).mem.read (sample 0x3000 0x1283).pc.toNat) =
        .ok (.addReg .r1 .r2 .r3)) ∧
    AboutToFetch (sample 0xFFFE 0x9080) ∧ Fetchable (sample 0xFFFE 0x9080) ∧
      decode ((sample 0xFFFE 0x9080).mem.read (sample 0xFFFE 0x9080).pc.toNat) =
        .error (.unusedBits 0x9080) :=
  ⟨⟨sample_aboutToFetch _ _, by decide⟩, sample_aboutToFetch _ _, fetchable_last _, by decide⟩

theorem witness_StepKeepsInv : (sample 0x3000 0x1283).Inv ∧
    step (sample 0x3000 0x1283) = .next (after (sample 0x3000 0x1283)) := ⟨sample_inv, rfl⟩

theorem witness_HostCallKeepsInv : State.reset.Inv ∧
    hostCall (.initializeCore 0xFFFE [1, 2]) State.reset =
      .next (hostNext (.initializeCore 0xFFFE [1, 2]) State.reset, .ok) :=
  ⟨⟨by decide, by decide, by decide⟩, rfl⟩

theorem witness_RunStateTransitions :
    State.reset.runState ≠ .running ∧ (sample 0x3000 0xF025).runState = .running ∧
    step (sample 0x3000 0xF025) = .next (after (sample 0x3000 0xF025)) :=
  ⟨by decide, rfl, rfl⟩

theorem witness_ConsoleChangesOnlyByTraps :
    step (sample 0x3000 0xF021) = .next (after (sample 0x3000 0xF021)) := rfl

theorem witness_BranchToItselfNeverEnds :
    let s := (sample 0x3000 0x0FFF).setPsr 1
    AboutToFetch s ∧ Fetchable s ∧ s.mem.read s.pc.toNat = 0x0FFF#16 ∧ s.psr.extractLsb' 0 3 ≠ 0 :=
  ⟨⟨rfl, List.not_mem_nil⟩, by unfold Fetchable; decide, by decide, by decide⟩

theorem witness_RunEndIsUnique :
    RunEnds (sample 0x3000 0xF025) (after (sample 0x3000 0xF025)) := ⟨1, rfl, by decide⟩

/-- The last word at 0xFFFF, and one past it. -/
theorem witness_InitializeLoadsWords :
    (State.reset.runState ≠ .running ∧ (∀ w ∈ [1, 0xFFFF], w < 0x10000) ∧
      0xFFFE ≤ 0xFFFF ∧ 0xFFFE + [1, 0xFFFF].length ≤ 0x10000) ∧
    ¬ (0xFFFF ≤ 0xFFFF ∧ 0xFFFF + [1, 0xFFFF].length ≤ 0x10000) := by decide

theorem witness_RunStartsAtItsArgument :
    State.reset.runState ≠ .running ∧ 0xFFFF ≤ 0xFFFF ∧ 0xFFFF < 0x10000 := by decide

theorem witness_InitializeRefusesWideWords :
    State.reset.runState ≠ .running ∧ ∃ w ∈ [0xFFFF, 0x10000], 0x10000 ≤ w := by decide

/-- A Run that starts at a breakpoint, at the halt word, and at a word that faults, each at 0xFFFF; one
that returns; and the two refused. -/
theorem witness_RunReturnsCostAndTerminalState :
    let b : State := { State.reset with bp := [0xFFFF] }
    let h := hostNext (.initializeCore 0xFFFF [0xF025]) State.reset
    let f := hostNext (.initializeCore 0xFFFF [0x1020]) State.reset
    let ub := hostNext (.run 0xFFFF) b
    let uh := hostNext (.run 0xFFFF) h
    let uf := hostNext (.run 0xFFFF) f
    (hostCall (.run 0xFFFF) b = .next (ub, .inProgress) ∧ ub.pc ∈ ub.bp) ∧
    (hostCall (.run 0xFFFF) h = .next (uh, .inProgress) ∧ uh.pc ∉ uh.bp ∧
      uh.mem.read uh.pc.toNat = 0xF025#16) ∧
    (hostCall (.run 0xFFFF) f = .next (uf, .inProgress) ∧
      step uf = .next { uf with runState := .faulted (.addressOutOfRange 0x10000) }) ∧
    HostReturns (.run 0xFFFF) h (after uh) (.runResult 0 .halted) ∧
    (sample 0x3000 0).runState = .running ∧ 0xFFFF < 0x10000 :=
  ⟨⟨rfl, by decide⟩, ⟨rfl, by decide⟩, ⟨rfl, rfl⟩, ⟨HostReply.noConfusion, 1, rfl⟩, rfl, by decide⟩

theorem witness_OtherOperationsReturnAtOnce :
    (∀ start, HostCall.getOutput ≠ .run start) ∧
    hostCall .getOutput State.reset = .next (State.reset, .output []) :=
  ⟨fun _ h => HostCall.noConfusion h, rfl⟩

theorem witness_AddBreakpointAddsOneAddress :
    State.reset.runState ≠ .running ∧ 0xFFFF ≤ 0xFFFF ∧ 0xFFFF < 0x10000 ∧ State.reset.Inv ∧
    hostCall (.addBreakpoint 0xFFFF) State.reset =
      .next (hostNext (.addBreakpoint 0xFFFF) State.reset, .ok) :=
  ⟨by decide, by decide, by decide, ⟨by decide, by decide, by decide⟩, rfl⟩

theorem witness_SetInputReplacesSequence :
    State.reset.runState ≠ .running ∧ (∀ c ∈ [0, 255], c < 256) ∧ ∃ c ∈ [0, 256], 256 ≤ c := by
  decide

theorem witness_HostReadsAndSerialization :
    State.reset.runState ≠ .running ∧ (sample 0x3000 0).runState = .running := by decide

end Sys2Proof.Tests
end

section
/-! PROOF. Sign and zero extension (spec/00_scope.md R11). -/

namespace Sys2Proof.Machine

/-- R11's form of the rule, the subtraction of 2^N written as adding -1 shifted left by N. -/
theorem sext_eq_ite_add_neg {n : Nat} (f : BitVec n) :
    sext f = if f.getLsbD (n - 1) = true then (f.toNat : Int) + (-1) * 2 ^ n else (f.toNat : Int) := by
  rw [sext, neg_one_mul, ← sub_eq_add_neg]

/-- R11's lower bound. At width 0 the exponent is 0 and the bound still holds. -/
theorem neg_two_pow_le_sext {n : Nat} (f : BitVec n) : -(2 ^ (n - 1) : Int) ≤ sext f := by
  rw [sext_eq_toInt]
  exact f.le_toInt

/-- R11's upper bound. -/
theorem sext_le_two_pow_sub_one {n : Nat} (f : BitVec n) : sext f ≤ 2 ^ (n - 1) - 1 := by
  rw [sext_eq_toInt]
  exact BitVec.toInt_le

/-- A character code has no more bits than a word, so its extension drops none (R11). -/
@[simp] theorem toNat_zext16 (c : CharCode) : (zext16 c).toNat = c.toNat :=
  BitVec.toNat_setWidth_of_le (by decide)

/-- Settles O39: the range is that of the field's two's-complement reading, which `sext` is. -/
theorem signExtensionByTopBit : Obligations.SignExtensionByTopBit :=
  ⟨fun _ f _ => ⟨sext_eq_ite_add_neg f, neg_two_pow_le_sext f, sext_le_two_pow_sub_one f⟩,
    toNat_zext16⟩

end Sys2Proof.Machine
end

section
/-! PROOF. An instruction's execute part taken apart: `effectOf` reads the state and answers what to
write, `Effect.apply` writes it. What an instruction reads is then a fact about `effectOf`, what it
leaves unchanged a fact about `Effect.apply`, and `body_eq_effect` ties the two to the model. -/

namespace Sys2Proof.Machine

/-- What a completed instruction writes beside the cost and the pc increment. -/
inductive Effect where
  /-- A register result with its condition codes (R75). -/
  | result (dr : Reg) (v : Word)
  /-- A register result alone (R87). -/
  | load (dr : Reg) (v : Word)
  /-- A word stored in memory (R37). -/
  | store (a v : Word)
  /-- The pc alone; a branch not taken goes to A + 1 (R80, R81). -/
  | jump (target : Word)
  /-- R7 and the pc (R82, R83). -/
  | call (target : Word)
  /-- RTI's pop: R6, the pc and the whole status register (R84). -/
  | pop (sp pc psr : Word)
  /-- One character taken from In into R0 (R95). -/
  | input (c : CharCode)
  /-- Characters appended to Out, and what that costs (R96, R97). -/
  | output (cs : List CharCode) (tc : Nat)

/-- The state after the writes of an effect. -/
def Effect.apply : Effect → State → State
  | .result dr v, s => s.setRegCC dr v
  | .load dr v, s => s.setReg dr v
  | .store a v, s => s.memWrite a v
  | .jump target, s => s.setPc target
  | .call target, s => (s.setReg .r7 s.pc).setPc target
  | .pop sp pc psr, s => ((s.setReg .r6 sp).setPc pc).setPsr psr
  | .input c, s =>
    (((s.setReg .r7 s.pc).setCursor (s.cursor + 1)).setReg .r0 (zext16 c)).addCost 28
  | .output cs tc, s => ((s.setReg .r7 s.pc).appendOutput cs).addCost tc

/-- The pop of RTI as an effect (R84). -/
def popEffect (s : State) : Except FaultKind Effect :=
  if psrM s.psr then .error .privilegeFault
  else if (s.reg .r6).toNat ≤ 0xFFFD then
    .ok (.pop (s.reg .r6 + 2#16) (s.memRead (s.reg .r6)) (s.memRead (s.reg .r6 + 1#16)))
  else .error (.addressOutOfRange 0x10000)

/-- A trap service as an effect (R94 to R98). -/
def trapEffect (vect : BitVec 8) (s : State) : Except FaultKind Effect :=
  if vect = 0x20 then
    match s.input[s.cursor]? with
    | none => .error .inputExhausted
    | some c => .ok (.input c)
  else if vect = 0x21 then .ok (.output [charOf (s.reg .r0)] 36)
  else if vect = 0x22 then
    (scanString s.mem (0x10000 - (s.reg .r0).toNat) (s.reg .r0).toNat).map
      fun cs => .output cs (40 + 27 * cs.length)
  else .error (.unsupportedTrap vect)

/-- What an instruction writes, read off the state whose pc is A + 1. -/
def effectOf (i : Instr) (s : State) : Except FaultKind Effect :=
  match i with
  | .br n z p off =>
    if branchTaken n z p s.psr then (pcRelative9 s off).map .jump else .ok (.jump s.pc)
  | .addReg dr sr1 sr2 => .ok (.result dr (aluAdd (s.reg sr1) (s.reg sr2)))
  | .addImm dr sr1 imm => .ok (.result dr (aluAdd (s.reg sr1) (immOperand imm)))
  | .ld dr off => (pcRelative9 s off).map fun a => .result dr (s.memRead a)
  | .st sr off => (pcRelative9 s off).map fun a => .store a (s.reg sr)
  | .jsr off => (pcRelative11 s off).map .call
  | .jsrr base => .ok (.call (registerTarget (s.setReg .r7 s.pc) base))
  | .andReg dr sr1 sr2 => .ok (.result dr (aluAnd (s.reg sr1) (s.reg sr2)))
  | .andImm dr sr1 imm => .ok (.result dr (aluAnd (s.reg sr1) (immOperand imm)))
  | .ldr dr base off => (baseOffset s base off).map fun a => .result dr (s.memRead a)
  | .str sr base off => (baseOffset s base off).map fun a => .store a (s.reg sr)
  | .rti => popEffect s
  | .not dr sr => .ok (.result dr (aluNot (s.reg sr)))
  | .ldi dr off => (indirect s off).map fun a => .load dr (s.memRead a)
  | .sti sr off => (indirect s off).map fun a => .store a (s.reg sr)
  | .jmp base => .ok (.jump (registerTarget s base))
  | .reserved low => .error (.illegalInstruction (encode (.reserved low)))
  | .lea dr off => (pcRelative9 s off).map fun a => .result dr a
  | .trap vect => trapEffect vect s
  | .halt => .ok (.jump s.pc)

/-! ## The tie to the model -/

theorem returnFromInterrupt_eq_effect (s : State) :
    returnFromInterrupt s = (popEffect s).map fun e => e.apply s := by
  unfold popEffect
  split
  next hm => exact returnFromInterrupt_of_mode hm
  next hm =>
    have hm : psrM s.psr = false := by simpa using hm
    split
    next hsp => exact returnFromInterrupt_of_room hm hsp
    next hsp => exact returnFromInterrupt_of_top hm (by omega)

theorem consoleInput_eq_effect (s : State) :
    body (.trap 0x20) s = (trapEffect 0x20 s).map fun e => e.apply s := by
  have hs : trapService 0x20 (s.setReg .r7 s.pc) = consoleInput (s.setReg .r7 s.pc) := rfl
  simp only [body, hs, consoleInput, trapEffect, if_true, State.setReg_input, State.setReg_cursor]
  cases s.input[s.cursor]? <;> rfl

theorem stringOutput_eq_effect (s : State) :
    body (.trap 0x22) s = (trapEffect 0x22 s).map fun e => e.apply s := by
  have hs : trapService 0x22 (s.setReg .r7 s.pc) = stringOutput (s.setReg .r7 s.pc) := rfl
  have hr0 : (s.setReg .r7 s.pc).reg .r0 = s.reg .r0 := rfl
  have h20 : (0x22 : BitVec 8) ≠ 0x20 := by decide
  have h21 : (0x22 : BitVec 8) ≠ 0x21 := by decide
  simp only [body, hs, stringOutput, hr0, State.setReg_mem, trapEffect, if_neg h20, if_neg h21,
    if_true]
  cases scanString s.mem (0x10000 - (s.reg .r0).toNat) (s.reg .r0).toNat <;> rfl

theorem body_trap_eq_effect (vect : BitVec 8) (s : State) :
    body (.trap vect) s = (trapEffect vect s).map fun e => e.apply s := by
  by_cases h20 : vect = 0x20
  · subst h20; exact consoleInput_eq_effect s
  by_cases h21 : vect = 0x21
  · subst h21; rfl
  by_cases h22 : vect = 0x22
  · subst h22; exact stringOutput_eq_effect s
  simp only [body, trapEffect, trapService_unsupported h20 h21 h22, if_neg h20, if_neg h21,
    if_neg h22]
  rfl

/-- An instruction's execute part writes exactly its effect, or faults exactly as it does. -/
theorem body_eq_effect (i : Instr) (s : State) :
    body i s = (effectOf i s).map fun e => e.apply s := by
  cases i with
  | rti => exact returnFromInterrupt_eq_effect s
  | trap vect => exact body_trap_eq_effect vect s
  | br n z p off =>
    simp only [body, effectOf]
    split
    · cases pcRelative9 s off <;> rfl
    · rfl
  | ld _ off | st _ off | lea _ off => simp only [body, effectOf]; cases pcRelative9 s off <;> rfl
  | jsr off => simp only [body, effectOf]; cases pcRelative11 s off <;> rfl
  | ldr _ base off | str _ base off =>
    simp only [body, effectOf]; cases baseOffset s base off <;> rfl
  | ldi _ off | sti _ off => simp only [body, effectOf]; cases indirect s off <;> rfl
  | _ => rfl

/-! ## Which effects an instruction can have -/

/-- What an instruction's effect may be: the registers it names, the instructions it belongs to. -/
def Effect.AllowedFor (i : Instr) (s : State) : Effect → Prop
  | .result dr _ => destinations i = [dr] ∧ writesPsr i = true
  | .load dr _ => destinations i = [dr] ∧ writesPsr i = false
  | .store _ _ => writesMemory i = true ∧ writesPsr i = false
  | .jump _ => writesPsr i = false
  | .call _ => destinations i = [.r7] ∧ writesPsr i = false
  | .pop _ _ _ => i = .rti
  | .input c => i = .trap 0x20 ∧ s.input[s.cursor]? = some c
  | .output _ _ => i = .trap 0x21 ∨ i = .trap 0x22

theorem exists_of_exceptMap_eq_ok {ε α β : Type} {x : Except ε α} {f : α → β} {b : β}
    (h : x.map f = .ok b) : ∃ a, x = .ok a ∧ f a = b := by
  cases x with
  | error k => exact nomatch h
  | ok a => exact ⟨a, rfl, Except.ok.inj h⟩

theorem exceptMap_eq_error_iff {ε α β : Type} {x : Except ε α} {f : α → β} {k : ε} :
    x.map f = .error k ↔ x = .error k := by
  cases x <;> simp [Except.map]

theorem exists_pop_of_popEffect {s : State} {e : Effect} (h : popEffect s = .ok e) :
    ∃ sp pc psr, e = .pop sp pc psr := by
  unfold popEffect at h
  split at h
  · cases h
  · split at h
    · cases h; exact ⟨_, _, _, rfl⟩
    · cases h

theorem trapEffect_allowed {vect : BitVec 8} {s : State} {e : Effect}
    (h : trapEffect vect s = .ok e) : e.AllowedFor (.trap vect) s := by
  unfold trapEffect at h
  split at h
  next h20 =>
    subst h20
    cases hc : s.input[s.cursor]? with
    | none => simp [hc] at h
    | some c =>
      obtain rfl : Effect.input c = e := by simpa [hc] using h
      exact ⟨rfl, hc⟩
  split at h
  next h21 => cases h; exact .inl (congrArg _ h21)
  split at h
  next h22 =>
    obtain ⟨cs, -, rfl⟩ := exists_of_exceptMap_eq_ok h
    exact .inr (congrArg _ h22)
  cases h

theorem effectOf_allowed {i : Instr} {s : State} {e : Effect} (h : effectOf i s = .ok e) :
    e.AllowedFor i s := by
  cases i with
  | br n z p off =>
    simp only [effectOf] at h
    split at h
    · obtain ⟨_, -, rfl⟩ := exists_of_exceptMap_eq_ok h; rfl
    · cases h; rfl
  | jsr _ | ld _ _ | ldr _ _ _ | lea _ _ | ldi _ _ | st _ _ | sti _ _ | str _ _ _ =>
    obtain ⟨_, -, rfl⟩ := exists_of_exceptMap_eq_ok h; exact ⟨rfl, rfl⟩
  | addReg _ _ _ | addImm _ _ _ | andReg _ _ _ | andImm _ _ _ | not _ _ | jsrr _ =>
    cases h; exact ⟨rfl, rfl⟩
  | jmp _ | halt => cases h; rfl
  | reserved _ => cases h
  | rti => obtain ⟨_, _, _, rfl⟩ := exists_pop_of_popEffect h; rfl
  | trap vect => exact trapEffect_allowed h

/-! ## What an effect leaves unchanged -/

@[simp] theorem Effect.apply_bp (e : Effect) (s : State) : (e.apply s).bp = s.bp := by
  cases e <;> rfl

@[simp] theorem Effect.apply_input (e : Effect) (s : State) : (e.apply s).input = s.input := by
  cases e <;> rfl

@[simp] theorem Effect.apply_runState (e : Effect) (s : State) :
    (e.apply s).runState = s.runState := by
  cases e <;> rfl

/-- An effect writes only the registers the spec's table names (R19). -/
theorem Effect.apply_reg {i : Instr} {s : State} {e : Effect} (ha : e.AllowedFor i s) {r : Reg}
    (hr : r ∉ destinations i) : (e.apply s).reg r = s.reg r := by
  cases e with
  | result dr v | load dr v =>
    obtain ⟨hd, -⟩ := ha
    have hne : r ≠ dr := by simpa [hd] using hr
    simp [Effect.apply, hne]
  | store a v | jump target => rfl
  | call target =>
    obtain ⟨hd, -⟩ := ha
    have hne : r ≠ .r7 := by simpa [hd] using hr
    simp [Effect.apply, hne]
  | pop sp pc psr =>
    subst ha
    have hne : r ≠ .r6 := by simpa [destinations] using hr
    simp [Effect.apply, hne]
  | input c =>
    obtain ⟨rfl, -⟩ := ha
    have hne : r ≠ .r0 ∧ r ≠ .r7 := by simpa [destinations] using hr
    simp [Effect.apply, hne]
  | output cs tc =>
    have hne : r ≠ .r7 := by
      rcases ha with rfl | rfl <;> simpa [destinations] using hr
    simp [Effect.apply, hne]

/-- The cursor moves only at a TRAP x20, by one (R26). -/
theorem Effect.apply_cursor {i : Instr} {s : State} {e : Effect} (ha : e.AllowedFor i s) :
    (e.apply s).cursor = s.cursor ∨ ((e.apply s).cursor = s.cursor + 1 ∧ i = .trap 0x20) := by
  cases e with
  | input c => exact .inr ⟨rfl, ha.1⟩
  | _ => exact .inl rfl

/-- Out only grows, and only at a TRAP x21 or x22 (R27). -/
theorem Effect.apply_output {i : Instr} {s : State} {e : Effect} (ha : e.AllowedFor i s) :
    ∃ written, (e.apply s).output = s.output ++ written ∧
      (written ≠ [] → i = .trap 0x21 ∨ i = .trap 0x22) := by
  cases e with
  | output cs tc => exact ⟨cs, rfl, fun _ => ha⟩
  | _ => exact ⟨[], (List.append_nil _).symm, fun h => absurd rfl h⟩

/-- An effect keeps the invariant: a store is at an address, and a character is taken only where one
is left. -/
theorem Effect.apply_inv {i : Instr} {s : State} {e : Effect} (ha : e.AllowedFor i s) (h : s.Inv) :
    (e.apply s).Inv := by
  cases e with
  | store a v => exact ⟨State.wf_memWrite a v h.mem_wf, h.bp_wf, h.cursor_le⟩
  | input c =>
    obtain ⟨-, hc⟩ := ha
    exact ⟨h.mem_wf, h.bp_wf, (List.getElem?_eq_some_iff.mp hc).1⟩
  | _ => exact ⟨h.mem_wf, h.bp_wf, h.cursor_le⟩

/-! ## What exec and a step can do -/

theorem body_eq_ok_of_effect {i : Instr} {s : State} {e : Effect} (h : effectOf i s = .ok e) :
    body i s = .ok (e.apply s) := by
  rw [body_eq_effect, h]; rfl

theorem body_eq_error_iff_effect {i : Instr} {s : State} {k : FaultKind} :
    body i s = .error k ↔ effectOf i s = .error k := by
  rw [body_eq_effect, exceptMap_eq_error_iff]

/-- An instruction stops the run and changes nothing else, or completes with an effect it may
have. -/
theorem exec_stops_or_completes {i : Instr} {s t : State} (h : exec i s = .next t) :
    (∃ r, r ≠ .running ∧ t = s.setRunState r) ∨
    (∃ e : Effect, e.AllowedFor i (s.setPc (s.pc + 1#16)) ∧
      t = (e.apply (s.setPc (s.pc + 1#16))).addCost (Config.baseCost i.opcode)) := by
  rcases exec_cases h with ⟨-, ht⟩ | ⟨-, k, ht, -⟩ | ⟨-, -, u, hb, rfl⟩
  · exact .inl ⟨.halted, RunState.noConfusion, ht⟩
  · exact .inl ⟨.faulted k, RunState.noConfusion, ht⟩
  · rw [body_eq_effect] at hb
    obtain ⟨e, he, rfl⟩ := exists_of_exceptMap_eq_ok hb
    exact .inr ⟨e, effectOf_allowed he, rfl⟩

/-- A step stops the run and changes nothing else, or completes the instruction at the pc. -/
theorem step_stops_or_completes {s t : State} (h : step s = .next t) :
    (∃ r, r ≠ .running ∧ t = s.setRunState r) ∨
    (∃ (i : Instr) (e : Effect), decode (s.mem.read s.pc.toNat) = .ok i ∧
      e.AllowedFor i (s.setPc (s.pc + 1#16)) ∧
      t = (e.apply (s.setPc (s.pc + 1#16))).addCost (Config.baseCost i.opcode)) := by
  obtain ⟨-, ⟨-, ht⟩ | ⟨-, i, hd, he⟩ | ⟨-, w, -, hw⟩⟩ := step_cases h
  · exact .inl ⟨.breakpointed, RunState.noConfusion, ht⟩
  · exact (exec_stops_or_completes he).imp_right fun ⟨e, ha, ht⟩ => ⟨i, e, hd, ha, ht⟩
  · rw [raiseIllegal_eq] at hw
    exact .inl ⟨.faulted _, RunState.noConfusion, (Host.Outcome.next.inj hw).symm⟩

end Sys2Proof.Machine
end

section
/-! PROOF. What every step keeps: the invariant, the registers outside an instruction's
destinations, the console buffers and the breakpoints (spec/10_state.md R19, R26 to R28). -/

namespace Sys2Proof.Machine

/-- Settles O45: a step that stops changes runState alone, and an effect keeps the invariant. -/
theorem stepKeepsInv : Obligations.StepKeepsInv := by
  intro s t h hstep
  rcases step_stops_or_completes hstep with ⟨r, -, rfl⟩ | ⟨i, e, -, ha, rfl⟩
  · exact ⟨h.mem_wf, h.bp_wf, h.cursor_le⟩
  · have hpc : (s.setPc (s.pc + 1#16)).Inv := ⟨h.mem_wf, h.bp_wf, h.cursor_le⟩
    have he := Effect.apply_inv ha hpc
    exact ⟨he.mem_wf, he.bp_wf, he.cursor_le⟩

/-- Settles O38: every effect an instruction may have writes its destinations only. -/
theorem onlyNamedRegistersAreWritten : Obligations.OnlyNamedRegistersAreWritten := by
  intro i s t h r hr
  rcases exec_stops_or_completes h with ⟨r, -, rfl⟩ | ⟨e, ha, rfl⟩
  · rfl
  · exact Effect.apply_reg ha hr

/-- Settles O50: the cursor and Out by the effects of TRAP alone. -/
theorem consoleChangesOnlyByTraps : Obligations.ConsoleChangesOnlyByTraps := by
  intro s t h
  rcases step_stops_or_completes h with ⟨r, -, rfl⟩ | ⟨i, e, hd, ha, rfl⟩
  · exact ⟨rfl, rfl, .inl rfl, [], (List.append_nil _).symm, fun h => absurd rfl h⟩
  · obtain ⟨written, hw, htrap⟩ := Effect.apply_output ha
    refine ⟨Effect.apply_input .., Effect.apply_bp .., ?_, written, hw, fun hne => ?_⟩
    · exact (Effect.apply_cursor ha).imp_right fun ⟨hc, hi⟩ => ⟨hc, hi ▸ hd⟩
    · rcases htrap hne with rfl | rfl
      · exact .inl hd
      · exact .inr hd

end Sys2Proof.Machine
end

section
/-! PROOF. Who reads and who writes the status register (spec/10_state.md R24, R25). Every
instruction but BR and RTI has the same effect whatever the status register is, and an effect writes
a status register of its own, writes the condition codes, or leaves it. -/

namespace Sys2Proof.Machine

/-! ## Reading -/

/-- An effect is the same under another status register, if RTI finds the same mode bit in it and BR
the same condition codes. -/
theorem effectOf_setPsr {i : Instr} {s : State} {q : Word}
    (hrti : i = .rti → psrM q = psrM s.psr)
    (hbr : ∀ n z p off, i = .br n z p off → branchTaken n z p q = branchTaken n z p s.psr) :
    effectOf i (s.setPsr q) = effectOf i s := by
  cases i with
  | rti =>
    have hm := hrti rfl
    simp only [effectOf, popEffect, State.setPsr_psr, hm]; rfl
  | br n z p off =>
    have hcc := hbr n z p off rfl
    simp only [effectOf, State.setPsr_psr, hcc]; rfl
  | _ => rfl

/-! ## Writing -/

/-- The status register after an effect, from the one before it. -/
def Effect.psrAfter : Effect → Word → Word
  | .result _ v, old => setCC v old
  | .load _ _, old => old
  | .store _ _, old => old
  | .jump _, old => old
  | .call _, old => old
  | .pop _ _ psr, _ => psr
  | .input _, old => old
  | .output _ _, old => old

@[simp] theorem Effect.apply_psr (e : Effect) (s : State) :
    (e.apply s).psr = e.psrAfter s.psr := by
  cases e <;> rfl

theorem Effect.apply_setPsr (e : Effect) (s : State) (q : Word) :
    e.apply (s.setPsr q) = (e.apply s).setPsr (e.psrAfter q) := by
  cases e <;> rfl

/-- An instruction outside R24's list leaves the status register. -/
theorem Effect.psrAfter_of_not_writesPsr {i : Instr} {s : State} {e : Effect}
    (ha : e.AllowedFor i s) (hw : writesPsr i = false) (old : Word) : e.psrAfter old = old := by
  cases e with
  | result dr v =>
    obtain ⟨-, hw'⟩ := ha
    exact absurd (hw.symm.trans hw') Bool.false_ne_true
  | pop sp pc psr => subst ha; cases hw
  | _ => rfl

/-- Every instruction but RTI leaves bits 15..3. -/
theorem Effect.psrAfter_getLsbD_high {i : Instr} {s : State} {e : Effect}
    (ha : e.AllowedFor i s) (hi : i ≠ .rti) (old : Word) {b : Nat} (hb : 3 ≤ b) :
    (e.psrAfter old).getLsbD b = old.getLsbD b := by
  cases e with
  | result dr v => exact setCC_getLsbD_high v old hb
  | pop sp pc psr => exact absurd ha hi
  | _ => rfl

/-- One of the six with a CC update sets exactly one of N, Z and P. -/
theorem Effect.psrAfter_low {i : Instr} {s : State} {e : Effect} (ha : e.AllowedFor i s)
    (hi : i ≠ .rti) (hw : writesPsr i = true) (old : Word) :
    (e.psrAfter old).extractLsb' 0 3 = 0b100#3 ∨ (e.psrAfter old).extractLsb' 0 3 = 0b010#3 ∨
      (e.psrAfter old).extractLsb' 0 3 = 0b001#3 := by
  cases e with
  | result dr v =>
    have hlow : (Effect.psrAfter (.result dr v) old).extractLsb' 0 3 = ccBits v := setCC_low v old
    rw [hlow]
    obtain ⟨-, -, h⟩ | ⟨-, h⟩ | ⟨-, -, h⟩ := ccBits_cases v
    · exact .inl h
    · exact .inr (.inl h)
    · exact .inr (.inr h)
  | jump target => exact absurd (hw.symm.trans ha) Bool.false_ne_true.symm
  | load _ _ | store _ _ | call _ => exact absurd (hw.symm.trans ha.2) Bool.false_ne_true.symm
  | pop sp pc psr => exact absurd ha hi
  | input c => obtain ⟨rfl, -⟩ := ha; cases hw
  | output cs tc => rcases ha with rfl | rfl <;> cases hw

/-- Each bit after an effect is written by it, the same from every status register, or carried
through. -/
theorem Effect.psrAfter_written_or_carried (e : Effect) (old q : Word) (b : Nat) :
    (e.psrAfter q).getLsbD b = (e.psrAfter old).getLsbD b ∨
      ((e.psrAfter q).getLsbD b = q.getLsbD b ∧ (e.psrAfter old).getLsbD b = old.getLsbD b) := by
  cases e with
  | result dr v =>
    rcases Nat.lt_or_ge b 3 with hb | hb
    · exact .inl ((setCC_getLsbD_low v q hb).trans (setCC_getLsbD_low v old hb).symm)
    · exact .inr ⟨setCC_getLsbD_high v q hb, setCC_getLsbD_high v old hb⟩
  | pop sp pc psr => exact .inl rfl
  | _ => exact .inr ⟨rfl, rfl⟩

/-! ## Two runs that differ in the status register -/

/-- From another status register that the instruction does not tell apart, exec does the same: it
stops with that status register unchanged, or completes with the same effect. -/
theorem exec_setPsr {i : Instr} {s t : State} {q : Word} (h : exec i s = .next t)
    (hrti : i = .rti → psrM q = psrM s.psr)
    (hbr : ∀ n z p off, i = .br n z p off → branchTaken n z p q = branchTaken n z p s.psr) :
    (t.psr = s.psr ∧ exec i (s.setPsr q) = .next (t.setPsr q)) ∨
    (∃ e : Effect, e.AllowedFor i (s.setPc (s.pc + 1#16)) ∧ t.psr = e.psrAfter s.psr ∧
      exec i (s.setPsr q) = .next (t.setPsr (e.psrAfter q))) := by
  have heff : effectOf i ((s.setPsr q).setPc (s.pc + 1#16)) = effectOf i (s.setPc (s.pc + 1#16)) :=
    effectOf_setPsr (s := s.setPc (s.pc + 1#16)) hrti hbr
  rcases exec_cases h with ⟨rfl, rfl⟩ | ⟨hi, k, rfl, ⟨hpc, rfl⟩ | ⟨hpc, hb⟩⟩ | ⟨hi, hpc, u, hb, rfl⟩
  · exact .inl ⟨rfl, rfl⟩
  · exact .inl ⟨rfl, exec_of_top (s := s.setPsr q) hi hpc⟩
  · rw [body_eq_error_iff_effect, ← heff, ← body_eq_error_iff_effect] at hb
    exact .inl ⟨rfl, exec_of_body_error (s := s.setPsr q) hi hpc hb⟩
  · rw [body_eq_effect] at hb
    obtain ⟨e, he, rfl⟩ := exists_of_exceptMap_eq_ok hb
    refine .inr ⟨e, effectOf_allowed he, Effect.apply_psr .., ?_⟩
    rw [exec_of_body (s := s.setPsr q) hi hpc (body_eq_ok_of_effect (heff.trans he))]
    have happly := e.apply_setPsr (s.setPc (s.pc + 1#16)) q
    exact congrArg (fun u : State => Host.Outcome.next (u.addCost _)) happly

/-! ## The obligations -/

/-- Settles O5: R24's list is the instructions whose effect is a result with flags, and RTI. -/
theorem onlyDocumentedInstructionsWritePsr : Obligations.OnlyDocumentedInstructionsWritePsr := by
  refine ⟨fun i s t hw h => ?_, fun i s t hi h b hb => ?_, fun i s t hi hw hrun h ht => ?_⟩
  · rcases exec_stops_or_completes h with ⟨r, -, rfl⟩ | ⟨e, ha, rfl⟩
    · rfl
    · exact (Effect.apply_psr ..).trans (Effect.psrAfter_of_not_writesPsr ha hw _)
  · rcases exec_stops_or_completes h with ⟨r, -, rfl⟩ | ⟨e, ha, rfl⟩
    · rfl
    · simpa using Effect.psrAfter_getLsbD_high ha hi s.psr hb
  · rcases exec_stops_or_completes h with ⟨r, hr, rfl⟩ | ⟨e, ha, rfl⟩
    · exact absurd ht hr
    · simpa using Effect.psrAfter_low ha hi hw s.psr

/-- Settles O6: both runs have the same effect, and an effect writes a bit or carries it through. -/
theorem onlyBranchReadsConditionCodes : Obligations.OnlyBranchReadsConditionCodes := by
  intro i s t q hbr hM h
  rcases exec_setPsr h (fun _ => hM) (fun n z p off hi => absurd hi (hbr n z p off)) with
    ⟨hpsr, hq⟩ | ⟨e, -, hpsr, hq⟩
  · exact ⟨q, hq, fun b => .inr ⟨rfl, by rw [hpsr]⟩⟩
  · exact ⟨e.psrAfter q, hq, fun b => by rw [hpsr]; exact e.psrAfter_written_or_carried s.psr q b⟩

end Sys2Proof.Machine
end

section
/-! PROOF. The mode bit belongs to RTI (spec/10_state.md R25). -/

namespace Sys2Proof.Machine

theorem withModeBit_getLsbD_low (m : Bool) (psr : Word) {b : Nat} (hb : b < 15) :
    (withModeBit m psr).getLsbD b = psr.getLsbD b :=
  (BitVec.getLsbD_append (x := BitVec.ofBool m) (y := psr.extractLsb' 0 15)).trans (by simp [hb])

theorem withModeBit_getLsbD_mode (m : Bool) (psr : Word) :
    (withModeBit m psr).getLsbD 15 = m :=
  (BitVec.getLsbD_append (x := BitVec.ofBool m) (y := psr.extractLsb' 0 15)).trans (by simp)

/-- BR does not see the mode bit. -/
@[simp] theorem branchTaken_withModeBit (n z p m : Bool) (psr : Word) :
    branchTaken n z p (withModeBit m psr) = branchTaken n z p psr := by
  simp only [branchTaken, psrN, psrZ, psrP, withModeBit_getLsbD_low _ _ (by decide : 2 < 15),
    withModeBit_getLsbD_low _ _ (by decide : 1 < 15),
    withModeBit_getLsbD_low _ _ (by decide : 0 < 15)]

/-- setCC carries the mode bit through. -/
theorem setCC_withModeBit (m : Bool) (v psr : Word) :
    setCC v (withModeBit m psr) = withModeBit m (setCC v psr) := by
  refine BitVec.eq_of_getLsbD_eq fun b hb => ?_
  obtain hlow | ⟨hmid, hmid'⟩ | rfl : b < 3 ∨ (3 ≤ b ∧ b < 15) ∨ b = 15 := by omega
  · rw [setCC_getLsbD_low _ _ hlow, withModeBit_getLsbD_low _ _ (by omega),
      setCC_getLsbD_low _ _ hlow]
  · rw [setCC_getLsbD_high _ _ hmid, withModeBit_getLsbD_low _ _ hmid',
      withModeBit_getLsbD_low _ _ hmid', setCC_getLsbD_high _ _ hmid]
  · rw [setCC_getLsbD_high _ _ (by decide), withModeBit_getLsbD_mode, withModeBit_getLsbD_mode]

theorem Effect.psrAfter_withModeBit {i : Instr} {s : State} {e : Effect} (ha : e.AllowedFor i s)
    (hi : i ≠ .rti) (m : Bool) (old : Word) :
    e.psrAfter (withModeBit m old) = withModeBit m (e.psrAfter old) := by
  cases e with
  | result dr v => exact setCC_withModeBit m v old
  | pop sp pc psr => exact absurd ha hi
  | _ => rfl

/-- Settles O32: no effect but RTI's pop writes M, and no other instruction tells M apart. -/
theorem modeBitBelongsToRti : Obligations.ModeBitBelongsToRti := by
  refine ⟨fun i s t hi h => ?_, fun i s t m hi h => ?_, fun s hpc hM => ?_, fun s hpc hM hsp => ?_⟩
  · obtain ⟨-, hhigh, -⟩ := onlyDocumentedInstructionsWritePsr
    exact hhigh i s t hi h 15 (by decide)
  · rcases exec_setPsr (q := withModeBit m s.psr) h (fun hrti => absurd hrti hi)
      (fun n z p off _ => branchTaken_withModeBit n z p m s.psr) with ⟨hpsr, hq⟩ | ⟨e, ha, hpsr, hq⟩
    · rw [hpsr]; exact hq
    · rw [hpsr, ← Effect.psrAfter_withModeBit ha hi]; exact hq
  · exact exec_of_body_error (i := .rti) Instr.noConfusion hpc
      (returnFromInterrupt_of_mode (s := s.setPc (s.pc + 1#16)) hM)
  · refine ⟨_, exec_of_body (i := .rti) Instr.noConfusion hpc
      (returnFromInterrupt_of_room (s := s.setPc (s.pc + 1#16)) hM hsp), rfl, ?_⟩
    have hsp1 : (s.reg .r6 + 1#16).toNat = (s.reg .r6).toNat + 1 := by
      simp only [BitVec.toNat_add, BitVec.toNat_ofNat]; omega
    simp [State.memRead, hsp1]

end Sys2Proof.Machine
end

section
/-! PROOF. The pc does not wrap (spec/10_state.md R22): the fetch increment and the relative
targets. -/

namespace Sys2Proof.Machine

/-- The decoder's answer halt stands for the halt word alone (R58, R63). -/
theorem eq_haltWord_of_decode {w : Word} (h : decode w = .ok .halt) : w = 0xF025#16 := by
  unfold decode decodeUnder at h
  split at h
  next hw => exact isHaltWord_iff.mp hw
  next =>
    unfold decodeFields checkUnused at h
    repeat' split at h
    all_goals cases h

/-- PCoffset9 is added to A + 1 (R85). -/
theorem pcRelative9_setPc_succ {s : State} (hpc : Fetchable s) (off : BitVec 9) :
    pcRelative9 (s.setPc (s.pc + 1#16)) off = checkAddr (pcRelativeSum s off) := by
  simp only [pcRelative9, State.setPc_pc, pc_succ_toNat hpc, sext_eq_toInt, pcRelativeSum]
  rfl

/-- PCoffset11 is added to A + 1 (R82). -/
theorem pcRelative11_setPc_succ {s : State} (hpc : Fetchable s) (off : BitVec 11) :
    pcRelative11 (s.setPc (s.pc + 1#16)) off = checkAddr (pcRelativeSum s off) := by
  simp only [pcRelative11, State.setPc_pc, pc_succ_toNat hpc, sext_eq_toInt, pcRelativeSum]
  rfl

/-- R80's test, bit by bit. -/
theorem branchTaken_iff {n z p : Bool} {psr : Word} :
    branchTaken n z p psr = true ↔ (n = true ∧ psr.getLsbD 2 = true) ∨
      (z = true ∧ psr.getLsbD 1 = true) ∨ (p = true ∧ psr.getLsbD 0 = true) := by
  simp only [branchTaken, psrN, psrZ, psrP, Bool.or_eq_true, Bool.and_eq_true, or_assoc]

/-- Settles O27: at 0xFFFF the increment faults before anything of the instruction, and a relative
target goes through `checkAddr`. -/
theorem pcDoesNotWrap : Obligations.PcDoesNotWrap := by
  refine ⟨fun s ⟨hrun, hbp⟩ hpc hw => ?_, fun s i hi hpc => exec_of_top hi hpc,
    fun n z p s off hpc hcc hout => ?_, fun s off hpc hout => ?_⟩
  · cases hd : decode (s.mem.read s.pc.toNat) with
    | ok i =>
      have hi : i ≠ .halt := by
        rintro rfl
        exact hw (by simpa [hpc] using eq_haltWord_of_decode hd)
      rw [step_of_decode hrun hbp hd]
      exact exec_of_top hi hpc
    | error e =>
      obtain ⟨w⟩ := e
      rw [step_of_illegal hrun hbp hd, raiseIllegal_eq, if_pos hpc]
      rfl
  · have htaken : branchTaken n z p s.psr = true := branchTaken_iff.mpr hcc
    have heff : effectOf (.br n z p off) (s.setPc (s.pc + 1#16)) =
        .error (.addressOutOfRange (pcRelativeSum s off)) := by
      simp only [effectOf, State.setPc_psr, htaken, if_true, pcRelative9_setPc_succ hpc,
        checkAddr_of_outside hout]
      rfl
    exact exec_of_body_error Instr.noConfusion hpc (body_eq_error_iff_effect.mpr heff)
  · have heff : effectOf (.jsr off) (s.setPc (s.pc + 1#16)) =
        .error (.addressOutOfRange (pcRelativeSum s off)) := by
      simp only [effectOf, pcRelative11_setPc_succ hpc, checkAddr_of_outside hout]
      rfl
    exact exec_of_body_error Instr.noConfusion hpc (body_eq_error_iff_effect.mpr heff)

end Sys2Proof.Machine
end

section
/-! PROOF. The host interface (spec/10_state.md R26, R28, R34, R35): what each operation's
transaction answers, and that it keeps the invariant. -/

namespace Sys2Proof.Machine

/-! ## The transactions -/

theorem allBelow_eq_true_iff {bound : Nat} {vs : List Nat} :
    allBelow bound vs = true ↔ ∀ v ∈ vs, v < bound := by
  simp [allBelow]

theorem allBelow_eq_false_iff {bound : Nat} {vs : List Nat} :
    allBelow bound vs = false ↔ ∃ v ∈ vs, bound ≤ v := by
  simp [allBelow]

theorem initializeFits_eq_true_iff {start : Nat} {words : List Nat} :
    initializeFits start words = true ↔ start ≤ 0xFFFF ∧ start + words.length ≤ 0x10000 := by
  simp [initializeFits]

theorem hostCall_of_running {s : State} (h : s.runState = .running) (c : HostCall) :
    hostCall c s = .refused .hostCallDuringRun := by
  simp [hostCall, h]

theorem hostCall_initializeCore_of_wide {s : State} {words : List Nat} (h : s.runState ≠ .running)
    (hw : ∃ w ∈ words, 0x10000 ≤ w) (start : Nat) :
    hostCall (.initializeCore start words) s = .refused .hostArgumentOutOfRange := by
  rw [hostCall_of_not_running h, hostTransaction, allBelow_eq_false_iff.mpr hw]
  rfl

theorem hostCall_run {s : State} {start : Nat} (h : s.runState ≠ .running) (hs : start ≤ 0xFFFF) :
    hostCall (.run start) s = .next (s.startRun start, .inProgress) := by
  rw [hostCall_of_not_running h, hostTransaction, if_pos hs]

theorem hostCall_run_of_outside {s : State} {start : Nat} (h : s.runState ≠ .running)
    (hs : 0xFFFF < start) : hostCall (.run start) s = .refused .hostArgumentOutOfRange := by
  rw [hostCall_of_not_running h, hostTransaction, if_neg (not_le.mpr hs)]

theorem hostCall_addBreakpoint {s : State} {a : Nat} (h : s.runState ≠ .running)
    (ha : a ≤ 0xFFFF) : hostCall (.addBreakpoint a) s = .next (s.addBreakpoint a, .ok) := by
  rw [hostCall_of_not_running h, hostTransaction, if_pos ha]

theorem hostCall_addBreakpoint_of_outside {s : State} {a : Nat} (h : s.runState ≠ .running)
    (ha : 0xFFFF < a) : hostCall (.addBreakpoint a) s = .refused .hostArgumentOutOfRange := by
  rw [hostCall_of_not_running h, hostTransaction, if_neg (not_le.mpr ha)]

theorem hostCall_setInput {s : State} {codes : List Nat} (h : s.runState ≠ .running)
    (hc : ∀ c ∈ codes, c < 256) : hostCall (.setInput codes) s = .next (s.setInput codes, .ok) := by
  have hb : allBelow (2 ^ Config.charBits) codes = true := allBelow_eq_true_iff.mpr hc
  rw [hostCall_of_not_running h, hostTransaction, if_pos hb]

theorem hostCall_setInput_of_wide {s : State} {codes : List Nat} (h : s.runState ≠ .running)
    (hc : ∃ c ∈ codes, 256 ≤ c) :
    hostCall (.setInput codes) s = .refused .hostArgumentOutOfRange := by
  have hb : allBelow (2 ^ Config.charBits) codes = false := allBelow_eq_false_iff.mpr hc
  rw [hostCall_of_not_running h, hostTransaction, hb]
  rfl

/-- What a host call can answer: a reading of the state as it is, or one of the four updates. -/
theorem hostCall_next_cases {c : HostCall} {s t : State} {r : HostReply}
    (h : hostCall c s = .next (t, r)) :
    t = s ∨
    (∃ start words, c = .initializeCore start words ∧ start + words.length ≤ 0x10000 ∧
      t = s.initializeCore start words) ∨
    (∃ start, c = .run start ∧ t = s.startRun start) ∨
    (∃ a, c = .addBreakpoint a ∧ t = s.addBreakpoint a) ∨
    (∃ codes, c = .setInput codes ∧ t = s.setInput codes) := by
  obtain ⟨-, h⟩ := hostCall_next h
  cases c with
  | initializeCore start words =>
    simp only [hostTransaction] at h
    split at h
    · split at h
      next hfits =>
        cases h
        exact .inr (.inl ⟨start, words, rfl, (initializeFits_eq_true_iff.mp hfits).2, rfl⟩)
      next => cases h; exact .inl rfl
    · cases h
  | run start =>
    simp only [hostTransaction] at h
    split at h
    · cases h; exact .inr (.inr (.inl ⟨start, rfl, rfl⟩))
    · cases h
  | addBreakpoint a =>
    simp only [hostTransaction] at h
    split at h
    · cases h; exact .inr (.inr (.inr (.inl ⟨a, rfl, rfl⟩)))
    · cases h
  | setInput codes =>
    simp only [hostTransaction] at h
    split at h
    · cases h; exact .inr (.inr (.inr (.inr ⟨codes, rfl, rfl⟩)))
    · cases h
  | getOutput | inspect => cases h; exact .inl rfl

/-! ## Breakpoints and input -/

theorem mem_addBreakpoint {s : State} {a : Nat} (ha : a ≤ 0xFFFF) {b : Word} :
    b ∈ (s.addBreakpoint a).bp ↔ b.toNat = a ∨ b ∈ s.bp := by
  have heq : b = BitVec.ofNat 16 a ↔ b.toNat = a := by
    rw [← BitVec.toNat_inj, BitVec.toNat_ofNat, Nat.mod_eq_of_lt (by omega)]
  rw [State.addBreakpoint, Breakpoints.mem_insert, heq]

/-- A second call adds nothing: "idempotent" (R28). -/
theorem State.addBreakpoint_addBreakpoint {s : State} (h : s.bp.wf) (a : Nat) :
    (s.addBreakpoint a).addBreakpoint a = s.addBreakpoint a := by
  have hwf : (s.addBreakpoint a).bp.wf := Breakpoints.wf_insert _ h
  have hmem : BitVec.ofNat 16 a ∈ (s.addBreakpoint a).bp := Breakpoints.mem_insert.mpr (.inl rfl)
  unfold State.addBreakpoint at hwf hmem ⊢
  rw [Breakpoints.insert_of_mem hwf hmem]

/-- Codes below 256 are kept as they are (R26, D29). -/
theorem State.setInput_input_toNat {s : State} {codes : List Nat} (hc : ∀ c ∈ codes, c < 256) :
    (s.setInput codes).input.map BitVec.toNat = codes := by
  rw [State.setInput, List.map_map]
  conv_rhs => rw [← List.map_id codes]
  exact List.map_congr_left fun c hmem => Nat.mod_eq_of_lt (hc c hmem)

/-! ## The obligations -/

/-- Settles O47: Initialize loads inside the space, and every update that touches In or the cursor
sets the cursor to 0. -/
theorem hostCallKeepsInv : Obligations.HostCallKeepsInv := by
  intro c s t r h hcall
  rcases hostCall_next_cases hcall with rfl | ⟨start, words, -, hfits, rfl⟩ | ⟨start, -, rfl⟩ |
    ⟨a, -, rfl⟩ | ⟨codes, -, rfl⟩
  · exact h
  · exact ⟨Memory.wf_load _ h.mem_wf (by simpa using hfits), h.bp_wf, Nat.zero_le _⟩
  · exact ⟨h.mem_wf, h.bp_wf, h.cursor_le⟩
  · exact ⟨h.mem_wf, Breakpoints.wf_insert _ h.bp_wf, h.cursor_le⟩
  · exact ⟨h.mem_wf, h.bp_wf, Nat.zero_le _⟩

/-- Settles O55: `Breakpoints.insert` is the union with one address, and adding a member of a
canonical set changes nothing. -/
theorem addBreakpointAddsOneAddress : Obligations.AddBreakpointAddsOneAddress := by
  refine ⟨fun s a hs ha => ?_, fun s t r a h hcall => ?_,
    fun s a hs ha => hostCall_addBreakpoint_of_outside hs ha⟩
  · exact ⟨_, hostCall_addBreakpoint hs ha, fun b => mem_addBreakpoint ha, rfl⟩
  · obtain ⟨hs, -⟩ := hostCall_next hcall
    have ha : a ≤ 0xFFFF := by
      by_contra hout
      rw [hostCall_addBreakpoint_of_outside hs (not_le.mp hout)] at hcall
      cases hcall
    rw [hostCall_addBreakpoint hs ha] at hcall
    cases hcall
    rw [hostCall_addBreakpoint (s := s.addBreakpoint a) hs ha,
      State.addBreakpoint_addBreakpoint h.bp_wf]

/-- Settles O56: a code below 256 is its own character code, and `allBelow` is R26's bound. -/
theorem setInputReplacesSequence : Obligations.SetInputReplacesSequence :=
  ⟨fun _ _ hs hc => ⟨_, hostCall_setInput hs hc, State.setInput_input_toNat hc, rfl, rfl⟩,
    fun _ _ hs hc => hostCall_setInput_of_wide hs hc⟩

/-- Settles O57: between runs a call is its transaction, and GetOutput's and Inspect's
leave the state. -/
theorem hostReadsAndSerialization : Obligations.HostReadsAndSerialization :=
  ⟨fun _ hs => hostCall_of_not_running hs _,
    fun s hs => ⟨s.view, hostCall_of_not_running hs _, rfl, rfl, rfl, rfl, rfl, rfl⟩,
    fun c _ hs => hostCall_of_running hs c⟩

end Sys2Proof.Machine
end

section
/-! PROOF. What a host operation returns (spec/10_state.md R29, R34; spec/40_cycle.md R61 to
R64, R73). -/

namespace Sys2Proof.Machine

/-- A refused call returns nothing. -/
theorem not_hostReturns_of_refused {c : HostCall} {s : State} {e : Refusal}
    (h : hostCall c s = .refused e) (t : State) (r : HostReply) : ¬ HostReturns c s t r := by
  rintro ⟨-, n, hn⟩
  rw [hostOperation, h] at hn
  cases hn

/-- A Run that returns was called between runs and with an address. -/
theorem run_accepted_of_hostReturns {s t : State} {start : Nat} {r : HostReply}
    (h : HostReturns (.run start) s t r) : s.runState ≠ .running ∧ start ≤ 0xFFFF := by
  have hs : s.runState ≠ .running := fun hrun =>
    not_hostReturns_of_refused (hostCall_of_running hrun _) t r h
  refine ⟨hs, not_lt.mp fun hout => ?_⟩
  exact not_hostReturns_of_refused (hostCall_run_of_outside hs hout) t r h

/-- A terminal state is where the loop stays. -/
theorem runFor_of_terminal {s : State} {n m : Nat} (h : (runFor n s).runState.isTerminal = true)
    (hle : n ≤ m) : runFor m s = runFor n s := by
  obtain ⟨d, rfl⟩ := Nat.exists_eq_add_of_le hle
  rw [runFor_add, runFor_of_not_running (RunState.ne_running_of_isTerminal h)]

/-- A run ends in one state (R72, R73). -/
theorem RunEnds.unique {s t u : State} (ht : RunEnds s t) (hu : RunEnds s u) : t = u := by
  obtain ⟨n, rfl, hn⟩ := ht
  obtain ⟨m, rfl, hm⟩ := hu
  rcases Nat.le_total n m with hle | hle
  · exact (runFor_of_terminal hn hle).symm
  · exact runFor_of_terminal hm hle

/-- R73: what a started Run returns is the end of its run. -/
theorem hostReturns_iff_runEnds {c : HostCall} {s u t : State} {r : HostReply}
    (h : hostCall c s = .next (u, .inProgress)) :
    HostReturns c s t r ↔ RunEnds u t ∧ r = .runResult t.cost t.runState := by
  rw [hostReturns_of_inProgress h]
  constructor
  · rintro ⟨n, hn, ht, hr⟩; exact ⟨⟨n, hn, ht⟩, hr⟩
  · rintro ⟨⟨n, hn, ht⟩, hr⟩; exact ⟨n, hn, ht, hr⟩

/-- A Run whose first iteration reaches a terminal state returns it. -/
theorem hostReturns_of_first_step {c : HostCall} {s u t : State}
    (h : hostCall c s = .next (u, .inProgress)) (hstep : step u = .next t)
    (ht : t.runState.isTerminal = true) : HostReturns c s t (.runResult t.cost t.runState) :=
  (hostReturns_iff_runEnds h).mpr ⟨⟨1, by simp only [runFor, hstep], ht⟩, rfl⟩

/-- Settles O59: a started Run returns the end of its run, which is unique, and a refused one
nothing. -/
theorem runReturnsCostAndTerminalState : Obligations.RunReturnsCostAndTerminalState := by
  refine ⟨fun s u start h t r => hostReturns_iff_runEnds h, fun s start t t' r r' h h' => ?_,
    fun s u start h => ?_, fun s start t r hbad h => ?_⟩
  · obtain ⟨hs, hstart⟩ := run_accepted_of_hostReturns h
    obtain ⟨hend, rfl⟩ := (hostReturns_iff_runEnds (hostCall_run hs hstart)).mp h
    obtain ⟨hend', rfl⟩ := (hostReturns_iff_runEnds (hostCall_run hs hstart)).mp h'
    obtain rfl := hend.unique hend'
    exact ⟨rfl, rfl⟩
  · obtain ⟨start', -, -, rfl⟩ := hostCall_inProgress h
    refine ⟨fun hbp => ?_, fun hbp hw => ?_, fun k hk => ?_⟩
    · exact hostReturns_of_first_step h (step_of_break rfl hbp) rfl
    · have hd : decode ((s.startRun start').mem.read (s.startRun start').pc.toNat) = .ok .halt := by
        rw [hw]; rfl
      exact hostReturns_of_first_step h (step_of_decode rfl hbp hd) rfl
    · exact hostReturns_of_first_step h hk rfl
  · obtain ⟨hs, hstart⟩ := run_accepted_of_hostReturns h
    exact hbad.elim hs (not_lt.mpr hstart)

/-- Settles O58: the refusal comes before any other test, and a refused call returns nothing. -/
theorem initializeRefusesWideWords : Obligations.InitializeRefusesWideWords := by
  intro s start ws hs hw
  have h := hostCall_initializeCore_of_wide hs hw start
  exact ⟨h, not_hostReturns_of_refused h⟩

/-- Settles O60: only Run's transaction answers that it is in progress, and any other answer stands
as it is. -/
theorem otherOperationsReturnAtOnce : Obligations.OtherOperationsReturnAtOnce := by
  intro c s t r hc
  have hne : ∀ u, hostCall c s ≠ .next (u, .inProgress) := fun u h => by
    obtain ⟨start, hrun, -⟩ := hostCall_inProgress h
    exact hc start hrun
  constructor
  · rintro ⟨-, n, hn⟩
    exact (hostOperation_of_ne n hne).symm.trans hn
  · intro h
    refine ⟨?_, 0, (hostOperation_of_ne 0 hne).trans h⟩
    rintro rfl
    exact hne t h

end Sys2Proof.Machine
end

section
/-! PROOF. Memory (spec/20_memory.md R37, R42, R45, R47): who writes it, and that the next load and
the next fetch read what a store has written. -/

namespace Sys2Proof.Machine

/-! ## Completion -/

/-- Completion of an instruction that has an effect. -/
theorem exec_of_effect {i : Instr} {s : State} {e : Effect} (hi : i ≠ .halt) (hpc : Fetchable s)
    (h : effectOf i (s.setPc (s.pc + 1#16)) = .ok e) :
    exec i s = .next ((e.apply (s.setPc (s.pc + 1#16))).addCost (Config.baseCost i.opcode)) :=
  exec_of_body hi hpc (body_eq_ok_of_effect h)

/-- An instruction after which the run goes on has completed with its effect. -/
theorem completed_with_effect {i : Instr} {s t : State} (h : exec i s = .next t)
    (ht : t.runState = .running) :
    Fetchable s ∧ ∃ e, effectOf i (s.setPc (s.pc + 1#16)) = .ok e ∧
      t = (e.apply (s.setPc (s.pc + 1#16))).addCost (Config.baseCost i.opcode) := by
  rcases exec_cases h with ⟨-, rfl⟩ | ⟨-, k, rfl, -⟩ | ⟨-, hpc, u, hb, rfl⟩
  · cases ht
  · cases ht
  · rw [body_eq_effect] at hb
    obtain ⟨e, he, rfl⟩ := exists_of_exceptMap_eq_ok hb
    exact ⟨hpc, e, he, rfl⟩

/-- setCC's bits, in the statement's terms (R75). -/
theorem flagsFrom_setCC (v old : Word) : FlagsFrom v old (setCC v old) :=
  ⟨psrN_setCC v old, psrZ_setCC v old, psrP_setCC v old, fun _ hi => setCC_getLsbD_high v old hi⟩

/-- A completed result writes one register and its condition codes, and nothing else. -/
theorem resultWithFlags_of_result {s : State} (hpc : Fetchable s) (dr : Reg) (v : Word) (c : Nat) :
    ResultWithFlags s (((Effect.result dr v).apply (s.setPc (s.pc + 1#16))).addCost c) dr v c where
  register := ⟨by simp [Effect.apply], fun q hq => by simp [Effect.apply, hq]⟩
  flags := flagsFrom_setCC v s.psr
  memory := rfl
  advance := ⟨pc_succ_toNat hpc, rfl⟩
  host := ⟨rfl, rfl, rfl, rfl, rfl⟩

/-- A completed store writes one word, and nothing else. -/
theorem storesWord_of_store {s : State} (hpc : Fetchable s) (a v : Word) (c : Nat) :
    StoresWord s (((Effect.store a v).apply (s.setPc (s.pc + 1#16))).addCost c) a v c where
  stored := by simp [Effect.apply]
  elsewhere := fun b hb => by simp [Effect.apply, BitVec.toNat_inj, hb]
  registers := fun _ => rfl
  psr := rfl
  advance := ⟨pc_succ_toNat hpc, rfl⟩
  host := ⟨rfl, rfl, rfl, rfl, rfl⟩

/-! ## Effective addresses, from the state before the fetch -/

/-- Base + offset does not see the pc (R85). -/
theorem baseOffset_setPc (s : State) (p : Word) (base : Reg) (off : BitVec 6) :
    baseOffset (s.setPc p) base off = checkAddr (baseOffsetSum s base off) := by
  rw [baseOffset, State.setPc_reg, sext_eq_toInt, baseOffsetSum]

/-- The address an indirect form reaches is the word at the PC-relative pointer (R87). -/
theorem indirect_setPc_succ {s : State} (hpc : Fetchable s) {off : BitVec 9} {p : Word}
    (hp : (p.toNat : Int) = pcRelativeSum s off) :
    indirect (s.setPc (s.pc + 1#16)) off = .ok (s.mem.read p.toNat) := by
  have hptr : pcRelative9 (s.setPc (s.pc + 1#16)) off = .ok p := by
    rw [pcRelative9_setPc_succ hpc, checkAddr_of_eq hp]
  rw [indirect_of_ok hptr]
  rfl

/-- An LD whose effective address is `a` loads the word there (R86). -/
theorem exec_ld_of_address {s : State} (hpc : Fetchable s) {dr : Reg} {off : BitVec 9} {a : Word}
    (ha : (a.toNat : Int) = pcRelativeSum s off) :
    ∃ t, exec (.ld dr off) s = .next t ∧
      ResultWithFlags s t dr (s.mem.read a.toNat) (Config.baseCost 0b0010) := by
  have heff : effectOf (.ld dr off) (s.setPc (s.pc + 1#16)) =
      .ok (.result dr (s.mem.read a.toNat)) := by
    rw [effectOf, pcRelative9_setPc_succ hpc, checkAddr_of_eq ha]
    rfl
  exact ⟨_, exec_of_effect Instr.noConfusion hpc heff, resultWithFlags_of_result hpc ..⟩

/-! ## A completed store -/

/-- An instruction whose effect is to store `v` at the address `addr` answers, once completed, has
stored it there. -/
theorem storesWord_of_completed {i : Instr} {s t : State} {addr : Except FaultKind Word} {v : Word}
    (heff : effectOf i (s.setPc (s.pc + 1#16)) = addr.map fun a => .store a v)
    (h : exec i s = .next t) (ht : t.runState = .running) :
    Fetchable s ∧ ∃ a, addr = .ok a ∧ StoresWord s t a v (Config.baseCost i.opcode) := by
  obtain ⟨hpc, e, he, rfl⟩ := completed_with_effect h ht
  obtain ⟨a, ha, rfl⟩ := exists_of_exceptMap_eq_ok (heff.symm.trans he)
  exact ⟨hpc, a, ha, storesWord_of_store hpc ..⟩

/-- ST stores at its PC-relative address (R88). -/
theorem storesWord_of_st {sr : Reg} {off : BitVec 9} {s t : State}
    (h : exec (.st sr off) s = .next t) (ht : t.runState = .running) :
    ∃ a : Word, (a.toNat : Int) = pcRelativeSum s off ∧
      StoresWord s t a (s.reg sr) (Config.baseCost 0b0011) := by
  obtain ⟨hpc, a, ha, hstore⟩ := storesWord_of_completed rfl h ht
  rw [pcRelative9_setPc_succ hpc] at ha
  exact ⟨a, (checkAddr_eq_ok_iff.mp ha).symm, hstore⟩

/-- STI stores at the address its pointer holds (R89). -/
theorem storesWord_of_sti {sr : Reg} {off : BitVec 9} {s t : State} {p : Word}
    (h : exec (.sti sr off) s = .next t) (ht : t.runState = .running)
    (hp : (p.toNat : Int) = pcRelativeSum s off) :
    StoresWord s t (s.mem.read p.toNat) (s.reg sr) (Config.baseCost 0b1011) := by
  obtain ⟨hpc, a, ha, hstore⟩ := storesWord_of_completed rfl h ht
  obtain rfl : s.mem.read p.toNat = a := Except.ok.inj ((indirect_setPc_succ hpc hp).symm.trans ha)
  exact hstore

/-- STR stores at its base + offset address (R91). -/
theorem storesWord_of_str {sr base : Reg} {off : BitVec 6} {s t : State}
    (h : exec (.str sr base off) s = .next t) (ht : t.runState = .running) :
    ∃ a : Word, (a.toNat : Int) = baseOffsetSum s base off ∧
      StoresWord s t a (s.reg sr) (Config.baseCost 0b0111) := by
  obtain ⟨-, a, ha, hstore⟩ := storesWord_of_completed rfl h ht
  rw [baseOffset_setPc] at ha
  exact ⟨a, (checkAddr_eq_ok_iff.mp ha).symm, hstore⟩

/-- A word stored where the pc then stands is what the next step runs: no fetch is ahead of the
store (R47). -/
theorem step_of_storesWord {s t : State} {v : Word} {c : Nat} {j : Instr}
    (hstore : StoresWord s t t.pc v c) (ht : t.runState = .running) (hbp : t.pc ∉ t.bp)
    (hd : decode v = .ok j) : step t = exec j t :=
  step_of_decode ht hbp (hstore.stored.symm ▸ hd)

/-- The same, with the address given as the integer it is computed as. -/
theorem step_of_storesWord_at {s t : State} {a v : Word} {sum : Int} {c : Nat} {j : Instr}
    (hstore : StoresWord s t a v c) (ha : (a.toNat : Int) = sum) (hpc : (t.pc.toNat : Int) = sum)
    (ht : t.runState = .running) (hbp : t.pc ∉ t.bp) (hd : decode v = .ok j) :
    step t = exec j t := by
  obtain rfl : t.pc = a := BitVec.eq_of_toNat_eq (Int.ofNat.inj (hpc.trans ha.symm))
  exact step_of_storesWord hstore ht hbp hd

/-! ## The obligations -/

/-- The effects other than a store leave memory (R37). -/
theorem Effect.apply_mem {i : Instr} {s : State} {e : Effect} (ha : e.AllowedFor i s)
    (hw : writesMemory i = false) : (e.apply s).mem = s.mem := by
  cases e with
  | store a v =>
    obtain ⟨hw', -⟩ := ha
    exact absurd (hw.symm.trans hw') Bool.false_ne_true
  | _ => rfl

/-- Settles O36: a stop writes runState alone, and only ST, STI and STR may have a store as their
effect. -/
theorem onlyStoresWriteMemory : Obligations.OnlyStoresWriteMemory := by
  intro i s t hw h
  rcases exec_stops_or_completes h with ⟨r, -, rfl⟩ | ⟨e, ha, rfl⟩
  · rfl
  · exact Effect.apply_mem ha hw

/-- Settles O35: the address the ST was checked at is the LD's, and it reads as the stored word. -/
theorem stThenLdYieldsStoredWord : Obligations.StThenLdYieldsStoredWord := by
  intro sr dr off off' s t h _ ht hpc hsum
  obtain ⟨a, ha, hstore⟩ := storesWord_of_st h ht
  rw [← hstore.stored]
  exact exec_ld_of_address hpc (ha.trans hsum.symm)

/-- Settles O37: in each of the three the pc is the address stored at. -/
theorem storeIsSeenByNextFetch : Obligations.StoreIsSeenByNextFetch := by
  refine ⟨fun sr off s t j _ h ht hpc hbp hd => ?_, fun sr off p s t j _ h ht hp hpc hbp hd => ?_,
    fun sr base off s t j _ h ht hpc hbp hd => ?_⟩
  · obtain ⟨a, ha, hstore⟩ := storesWord_of_st h ht
    exact step_of_storesWord_at hstore ha hpc ht hbp hd
  · have hstore := storesWord_of_sti h ht hp
    rw [← hpc] at hstore
    exact step_of_storesWord hstore ht hbp hd
  · obtain ⟨a, ha, hstore⟩ := storesWord_of_str h ht
    exact step_of_storesWord_at hstore ha hpc ht hbp hd

end Sys2Proof.Machine
end

section
/-! PROOF. The word layouts of the format table (spec/30_encoding.md R50 to R52). A word is a
concatenation of fields exactly when it reads as those fields, so one lemma per layout serves both
directions of the round trip. -/

namespace Sys2Proof

/-! ## Concatenation and field reading -/

/-- A word is a concatenation exactly when its two parts are read from it. -/
theorem append_eq_iff {n k : Nat} {hi : BitVec n} {lo : BitVec k} {x : BitVec (n + k)} :
    hi ++ lo = x ↔ x.extractLsb' k n = hi ∧ x.extractLsb' 0 k = lo := by
  constructor
  · rintro rfl
    exact ⟨BitVec.extractLsb'_append_eq_left, BitVec.extractLsb'_append_eq_right⟩
  · rintro ⟨rfl, rfl⟩
    exact BitVec.extractLsb'_append_extractLsb'

/-- The same inside a longer word: a field is a concatenation exactly when its two parts are. -/
theorem extractLsb'_eq_append_iff {m s n k : Nat} {x : BitVec m} {hi : BitVec n} {lo : BitVec k} :
    x.extractLsb' s (n + k) = hi ++ lo ↔ x.extractLsb' (s + k) n = hi ∧ x.extractLsb' s k = lo := by
  rw [← BitVec.extractLsb'_append_extractLsb'_eq_extractLsb' rfl, append_eq_iff,
    BitVec.extractLsb'_append_eq_left, BitVec.extractLsb'_append_eq_right, eq_comm,
    @eq_comm _ lo]

/-- A register field holds a register's number exactly when it names that register (R54). -/
theorem Reg.eq_bits_iff {b : BitVec 3} {r : Reg} : b = r.bits ↔ Reg.ofBits b = r := by
  constructor
  · rintro rfl; exact Reg.ofBits_bits r
  · rintro rfl; exact (Reg.bits_ofBits b).symm

/-- A selector field is one bit. -/
theorem extractLsb'_eq_ofBool_iff {m s : Nat} {x : BitVec m} {b : Bool} :
    x.extractLsb' s 1 = BitVec.ofBool b ↔ x.getLsbD s = b := by
  rw [BitVec.eq_of_getLsbD_eq_iff]
  simp

/-- A mode bit that is set (R54). -/
theorem extractLsb'_eq_one_iff {m s : Nat} {x : BitVec m} :
    x.extractLsb' s 1 = 0b1#1 ↔ x.getLsbD s = true :=
  extractLsb'_eq_ofBool_iff (b := true)

/-- A mode bit that is clear (R54). -/
theorem extractLsb'_eq_zero_iff {m s : Nat} {x : BitVec m} :
    x.extractLsb' s 1 = 0b0#1 ↔ x.getLsbD s = false :=
  extractLsb'_eq_ofBool_iff (b := false)

/-! ## The layouts -/

variable {w : Word} {op : BitVec 4}

/-- `xxxx n z p iiiiiiiii`. -/
theorem br_layout_iff {n z p : Bool} {off : BitVec 9} :
    op ++ BitVec.ofBool n ++ BitVec.ofBool z ++ BitVec.ofBool p ++ off = w ↔
      opcodeField w = op ∧ w.getLsbD 11 = n ∧ w.getLsbD 10 = z ∧ w.getLsbD 9 = p ∧
        offset9Field w = off := by
  rw [append_eq_iff]
  simp only [extractLsb'_eq_append_iff, extractLsb'_eq_ofBool_iff, and_assoc]
  rfl

/-- `xxxx DDD iiiiiiiii`. -/
theorem reg_offset9_layout_iff {r : Reg} {off : BitVec 9} :
    op ++ r.bits ++ off = w ↔ opcodeField w = op ∧ regField11 w = r ∧ offset9Field w = off := by
  rw [append_eq_iff]
  simp only [extractLsb'_eq_append_iff, Reg.eq_bits_iff, and_assoc]
  rfl

/-- `xxxx DDD SSS` and the low six bits: an offset6, or NOT's fixed bits. -/
theorem reg_reg_low6_layout_iff {r q : Reg} {u : BitVec 6} :
    op ++ r.bits ++ q.bits ++ u = w ↔
      opcodeField w = op ∧ regField11 w = r ∧ regField8 w = q ∧ w.extractLsb' 0 6 = u := by
  rw [append_eq_iff]
  simp only [extractLsb'_eq_append_iff, Reg.eq_bits_iff, and_assoc]
  rfl

/-- `xxxx DDD SSS`, the mode bit and an imm5. -/
theorem reg_reg_imm5_layout_iff {r q : Reg} {imm : BitVec 5} :
    op ++ r.bits ++ q.bits ++ 0b1#1 ++ imm = w ↔
      opcodeField w = op ∧ regField11 w = r ∧ regField8 w = q ∧ w.getLsbD 5 = true ∧
        imm5Field w = imm := by
  rw [append_eq_iff]
  simp only [extractLsb'_eq_append_iff, Reg.eq_bits_iff, extractLsb'_eq_one_iff, and_assoc]
  rfl

/-- `xxxx DDD SSS`, the mode bit, two unused bits and `TTT`. -/
theorem reg_reg_reg_layout_iff {r q t : Reg} {u : BitVec 2} :
    op ++ r.bits ++ q.bits ++ 0b0#1 ++ u ++ t.bits = w ↔
      opcodeField w = op ∧ regField11 w = r ∧ regField8 w = q ∧ w.getLsbD 5 = false ∧
        w.extractLsb' 3 2 = u ∧ regField2 w = t := by
  rw [append_eq_iff]
  simp only [extractLsb'_eq_append_iff, Reg.eq_bits_iff, extractLsb'_eq_zero_iff, and_assoc]
  rfl

/-- `xxxx`, the mode bit and a PCoffset11. -/
theorem offset11_layout_iff {off : BitVec 11} :
    op ++ 0b1#1 ++ off = w ↔
      opcodeField w = op ∧ w.getLsbD 11 = true ∧ offset11Field w = off := by
  rw [append_eq_iff]
  simp only [extractLsb'_eq_append_iff, extractLsb'_eq_one_iff, and_assoc]
  rfl

/-- `xxxx`, the mode bit, two unused bits, `SSS` and six unused bits. -/
theorem jsrr_layout_iff {u : BitVec 2} {r : Reg} {u' : BitVec 6} :
    op ++ 0b0#1 ++ u ++ r.bits ++ u' = w ↔
      opcodeField w = op ∧ w.getLsbD 11 = false ∧ w.extractLsb' 9 2 = u ∧ regField8 w = r ∧
        w.extractLsb' 0 6 = u' := by
  rw [append_eq_iff]
  simp only [extractLsb'_eq_append_iff, Reg.eq_bits_iff, extractLsb'_eq_zero_iff, and_assoc]
  rfl

/-- `xxxx`, three unused bits, `SSS` and six unused bits. -/
theorem jmp_layout_iff {u : BitVec 3} {r : Reg} {u' : BitVec 6} :
    op ++ u ++ r.bits ++ u' = w ↔
      opcodeField w = op ∧ w.extractLsb' 9 3 = u ∧ regField8 w = r ∧ w.extractLsb' 0 6 = u' := by
  rw [append_eq_iff]
  simp only [extractLsb'_eq_append_iff, Reg.eq_bits_iff, and_assoc]
  rfl

/-- `xxxx` and the low twelve bits: RTI's unused bits, or a reserved word's. -/
theorem low12_layout_iff {u : BitVec 12} :
    op ++ u = w ↔ opcodeField w = op ∧ w.extractLsb' 0 12 = u :=
  append_eq_iff

/-- `xxxx`, four unused bits and `vvvvvvvv`. -/
theorem trap_layout_iff {u : BitVec 4} {v : BitVec 8} :
    op ++ u ++ v = w ↔ opcodeField w = op ∧ w.extractLsb' 8 4 = u ∧ trapvect8Field w = v := by
  rw [append_eq_iff]
  simp only [extractLsb'_eq_append_iff, and_assoc]
  rfl

end Sys2Proof
end

section
/-! PROOF. Decoding and encoding are inverse to each other (spec/30_encoding.md R52, R55, R58), and what
the decoder does with unused bits (R57). -/

namespace Sys2Proof

/-! ## Formats with unused bits (R57) -/

/-- The check under STRICT_DECODE, by its two outcomes. -/
theorem checkUnused_true (asFixed : Bool) (w : Word) (i : Instr) :
    checkUnused true asFixed w i = if asFixed then .ok i else .error (.unusedBits w) := by
  cases asFixed <;> rfl

/-- Two unused fields are as the format fixes them when both are zero. -/
theorem beq_zero_and_beq_zero_iff {n k : Nat} {u : BitVec n} {u' : BitVec k} :
    (u == 0 && u' == 0) = true ↔ u = 0 ∧ u' = 0 := by
  rw [Bool.and_eq_true, beq_iff_eq, beq_iff_eq]

/-- A word whose decoding goes through the check decodes whatever its unused bits are without
STRICT_DECODE, and exactly when they are as fixed with it. -/
theorem lax_and_strict_of_checkUnused {w : Word} {i : Instr} {asFixed : Bool} {P : Prop}
    [Decidable P] (h : ∀ strict, decodeFields strict w = checkUnused strict asFixed w i)
    (hP : asFixed = true ↔ P) :
    decodeFields false w = .ok i ∧
      decodeFields true w = if P then .ok i else .error (.unusedBits w) := by
  simp only [h, checkUnused_false, checkUnused_true, hP, and_self]

section
variable {w : Word} (strict : Bool)

theorem decodeFields_addReg {dr sr1 sr2 : Reg} {u : BitVec 2}
    (hw : 0b0001#4 ++ dr.bits ++ sr1.bits ++ 0b0#1 ++ u ++ sr2.bits = w) :
    decodeFields strict w = checkUnused strict (u == 0) w (.addReg dr sr1 sr2) := by
  obtain ⟨hop, rfl, rfl, hm, rfl, rfl⟩ := reg_reg_reg_layout_iff.mp hw
  simp only [decodeFields, hop, hm]
  rfl

theorem decodeFields_andReg {dr sr1 sr2 : Reg} {u : BitVec 2}
    (hw : 0b0101#4 ++ dr.bits ++ sr1.bits ++ 0b0#1 ++ u ++ sr2.bits = w) :
    decodeFields strict w = checkUnused strict (u == 0) w (.andReg dr sr1 sr2) := by
  obtain ⟨hop, rfl, rfl, hm, rfl, rfl⟩ := reg_reg_reg_layout_iff.mp hw
  simp only [decodeFields, hop, hm]
  rfl

theorem decodeFields_jsrr {base : Reg} {u : BitVec 2} {u' : BitVec 6}
    (hw : 0b0100#4 ++ 0b0#1 ++ u ++ base.bits ++ u' = w) :
    decodeFields strict w = checkUnused strict (u == 0 && u' == 0) w (.jsrr base) := by
  obtain ⟨hop, hm, rfl, rfl, rfl⟩ := jsrr_layout_iff.mp hw
  simp only [decodeFields, hop, hm]
  rfl

theorem decodeFields_rti {u : BitVec 12} (hw : 0b1000#4 ++ u = w) :
    decodeFields strict w = checkUnused strict (u == 0) w .rti := by
  obtain ⟨hop, rfl⟩ := low12_layout_iff.mp hw
  simp only [decodeFields, hop]
  rfl

theorem decodeFields_not {dr sr : Reg} {u : BitVec 6}
    (hw : 0b1001#4 ++ dr.bits ++ sr.bits ++ u = w) :
    decodeFields strict w = checkUnused strict (u == 0b111111#6) w (.not dr sr) := by
  obtain ⟨hop, rfl, rfl, rfl⟩ := reg_reg_low6_layout_iff.mp hw
  simp only [decodeFields, hop]
  rfl

theorem decodeFields_jmp {base : Reg} {u : BitVec 3} {u' : BitVec 6}
    (hw : 0b1100#4 ++ u ++ base.bits ++ u' = w) :
    decodeFields strict w = checkUnused strict (u == 0 && u' == 0) w (.jmp base) := by
  obtain ⟨hop, rfl, rfl, rfl⟩ := jmp_layout_iff.mp hw
  simp only [decodeFields, hop]
  rfl

theorem decodeFields_trap {u : BitVec 4} {v : BitVec 8} (hw : 0b1111#4 ++ u ++ v = w) :
    decodeFields strict w = checkUnused strict (u == 0) w (.trap v) := by
  obtain ⟨hop, rfl, rfl⟩ := trap_layout_iff.mp hw
  simp only [decodeFields, hop]
  rfl

end

/-! ## Encoded words with their unused bits apart -/

/-- The three fixed bits of register mode are the mode bit and the two unused bits. -/
theorem append_mode_append_unused {n k : Nat} (hi : BitVec n) (lo : BitVec k) :
    hi ++ 0b0#1 ++ 0b00#2 ++ lo = hi ++ 0b000#3 ++ lo :=
  congrArg (· ++ lo) BitVec.append_assoc

theorem encode_addReg (dr sr1 sr2 : Reg) : encode (.addReg dr sr1 sr2) =
    0b0001#4 ++ dr.bits ++ sr1.bits ++ 0b0#1 ++ 0b00#2 ++ sr2.bits :=
  (append_mode_append_unused _ _).symm

theorem encode_andReg (dr sr1 sr2 : Reg) : encode (.andReg dr sr1 sr2) =
    0b0101#4 ++ dr.bits ++ sr1.bits ++ 0b0#1 ++ 0b00#2 ++ sr2.bits :=
  (append_mode_append_unused _ _).symm

theorem encode_jsrr (base : Reg) : encode (.jsrr base) =
    0b0100#4 ++ 0b0#1 ++ 0b00#2 ++ base.bits ++ 0b000000#6 := rfl

theorem encode_trap (vect : BitVec 8) : encode (.trap vect) = 0b1111#4 ++ 0b0000#4 ++ vect := rfl

/-! ## Decoding an encoded instruction -/

/-- Under either setting the word of an instruction, the halt word's apart, decodes to it (R55). -/
theorem decodeFields_encode (strict : Bool) {i : Instr} (hi : i ≠ .halt) :
    decodeFields strict (encode i) = .ok i := by
  generalize hw : encode i = w
  cases i with
  | br n z p off =>
    obtain ⟨hop, rfl, rfl, rfl, rfl⟩ := br_layout_iff.mp hw
    simp only [decodeFields, hop]
    rfl
  | ld r off | st r off | ldi r off | sti r off | lea r off =>
    obtain ⟨hop, rfl, rfl⟩ := reg_offset9_layout_iff.mp hw
    simp only [decodeFields, hop]
    rfl
  | ldr r base off | str r base off =>
    obtain ⟨hop, rfl, rfl, rfl⟩ := reg_reg_low6_layout_iff.mp hw
    simp only [decodeFields, hop]
    rfl
  | addImm dr sr1 imm | andImm dr sr1 imm =>
    obtain ⟨hop, rfl, rfl, hm, rfl⟩ := reg_reg_imm5_layout_iff.mp hw
    simp only [decodeFields, hop, hm]
    rfl
  | jsr off =>
    obtain ⟨hop, hm, rfl⟩ := offset11_layout_iff.mp hw
    simp only [decodeFields, hop, hm]
    rfl
  | reserved low =>
    obtain ⟨hop, rfl⟩ := low12_layout_iff.mp hw
    simp only [decodeFields, hop]
    rfl
  | addReg dr sr1 sr2 =>
    rw [encode_addReg] at hw
    exact (decodeFields_addReg strict hw).trans (checkUnused_asFixed ..)
  | andReg dr sr1 sr2 =>
    rw [encode_andReg] at hw
    exact (decodeFields_andReg strict hw).trans (checkUnused_asFixed ..)
  | jsrr base =>
    rw [encode_jsrr] at hw
    exact (decodeFields_jsrr strict hw).trans (checkUnused_asFixed ..)
  | trap vect =>
    rw [encode_trap] at hw
    exact (decodeFields_trap strict hw).trans (checkUnused_asFixed ..)
  | rti => exact (decodeFields_rti strict hw).trans (checkUnused_asFixed ..)
  | not dr sr => exact (decodeFields_not strict hw).trans (checkUnused_asFixed ..)
  | jmp base => exact (decodeFields_jmp strict hw).trans (checkUnused_asFixed ..)
  | halt => exact absurd rfl hi

/-- The halt word reads as a TRAP x25, so it is the word of no other well-formed instruction
(R58). -/
theorem isHaltWord_encode {i : Instr} (hi : i ≠ .halt) (hwf : i.wellFormed = true) :
    isHaltWord (encode i) = false := by
  rw [Bool.eq_false_iff]
  intro hw
  have hd : decodeFields true (encode i) = .ok (.trap 0x25) := by rw [isHaltWord_iff.mp hw]; rfl
  obtain rfl : i = .trap 0x25 := Except.ok.inj ((decodeFields_encode true hi).symm.trans hd)
  exact absurd hwf (by decide)

/-- Settles O40: the halt word decodes to halt, and every other instruction's word is not the halt
word and reads back field by field. -/
theorem decodeOfEncode : Obligations.DecodeOfEncode := by
  intro i strict hwf
  by_cases hi : i = .halt
  · subst hi; rfl
  · rw [decodeUnder_of_not_halt (isHaltWord_encode hi hwf)]
    exact decodeFields_encode strict hi

/-! ## Encoding a decoded word -/

/-- A register-mode word of ADD or AND whose unused bits are as fixed. -/
theorem append_reg_mode_fields {w : Word} {op : BitVec 4} (hop : opcodeField w = op)
    (hm : w.getLsbD 5 = false) (hu : w.extractLsb' 3 2 = 0#2) :
    op ++ (regField11 w).bits ++ (regField8 w).bits ++ 0b000#3 ++ (regField2 w).bits = w := by
  rw [← append_mode_append_unused]
  exact reg_reg_reg_layout_iff.mpr ⟨hop, rfl, rfl, hm, hu, rfl⟩

/-- A checked arm of the strict decoder answers only where its unused bits are as fixed. -/
theorem of_checkUnused_true_eq_ok {asFixed : Bool} {w : Word} {i j : Instr}
    (h : checkUnused true asFixed w i = .ok j) : asFixed = true ∧ i = j := by
  obtain ⟨hfixed, rfl⟩ := checkUnused_eq_ok_iff.mp h
  exact ⟨hfixed rfl, rfl⟩

/-- A word that decodes under STRICT_DECODE is the word of what it decodes to: each arm of the decoder
reads every bit of its layout, or checks it. -/
theorem encode_of_decodeFields {w : Word} {i : Instr} (h : decodeFields true w = .ok i) :
    encode i = w := by
  unfold decodeFields at h
  split at h
  -- BR
  case h_1 hop =>
    cases h
    exact br_layout_iff.mpr ⟨BitVec.eq_of_toNat_eq hop, rfl, rfl, rfl, rfl⟩
  -- ADD and AND
  case h_2 hop | h_6 hop =>
    split at h
    next hm =>
      cases h
      exact reg_reg_imm5_layout_iff.mpr ⟨BitVec.eq_of_toNat_eq hop, rfl, rfl, hm, rfl⟩
    next hm =>
      obtain ⟨hu, rfl⟩ := of_checkUnused_true_eq_ok h
      exact append_reg_mode_fields (BitVec.eq_of_toNat_eq hop) (Bool.eq_false_iff.mpr hm) (eq_of_beq hu)
  -- LD, ST, LDI, STI and LEA
  case h_3 hop | h_4 hop | h_11 hop | h_12 hop | h_15 hop =>
    cases h
    exact reg_offset9_layout_iff.mpr ⟨BitVec.eq_of_toNat_eq hop, rfl, rfl⟩
  -- JSR and JSRR
  case h_5 hop =>
    split at h
    next hm =>
      cases h
      exact offset11_layout_iff.mpr ⟨BitVec.eq_of_toNat_eq hop, hm, rfl⟩
    next hm =>
      obtain ⟨hu, rfl⟩ := of_checkUnused_true_eq_ok h
      obtain ⟨hu, hu'⟩ := beq_zero_and_beq_zero_iff.mp hu
      rw [encode_jsrr]
      exact jsrr_layout_iff.mpr
        ⟨BitVec.eq_of_toNat_eq hop, Bool.eq_false_iff.mpr hm, hu, rfl, hu'⟩
  -- LDR and STR
  case h_7 hop | h_8 hop =>
    cases h
    exact reg_reg_low6_layout_iff.mpr ⟨BitVec.eq_of_toNat_eq hop, rfl, rfl, rfl⟩
  -- RTI
  case h_9 hop =>
    obtain ⟨hu, rfl⟩ := of_checkUnused_true_eq_ok h
    exact low12_layout_iff.mpr ⟨BitVec.eq_of_toNat_eq hop, eq_of_beq hu⟩
  -- NOT
  case h_10 hop =>
    obtain ⟨hu, rfl⟩ := of_checkUnused_true_eq_ok h
    exact reg_reg_low6_layout_iff.mpr ⟨BitVec.eq_of_toNat_eq hop, rfl, rfl, eq_of_beq hu⟩
  -- JMP
  case h_13 hop =>
    obtain ⟨hu, rfl⟩ := of_checkUnused_true_eq_ok h
    obtain ⟨hu, hu'⟩ := beq_zero_and_beq_zero_iff.mp hu
    exact jmp_layout_iff.mpr ⟨BitVec.eq_of_toNat_eq hop, hu, rfl, hu'⟩
  -- the reserved opcode
  case h_14 hop =>
    cases h
    exact low12_layout_iff.mpr ⟨BitVec.eq_of_toNat_eq hop, rfl⟩
  -- TRAP
  case h_16 =>
    obtain ⟨hu, rfl⟩ := of_checkUnused_true_eq_ok h
    have hop : (opcodeField w).toNat = 15 := by
      have hlt := (opcodeField w).isLt
      grind
    rw [encode_trap]
    exact trap_layout_iff.mpr ⟨BitVec.eq_of_toNat_eq hop, eq_of_beq hu, rfl⟩

/-- A TRAP is well-formed if its word is not the halt word, and every other instruction is. -/
theorem wellFormed_of_encode_ne {i : Instr} (h : encode i ≠ Config.haltWord) :
    i.wellFormed = true := by
  cases i with
  | trap vect => exact bne_iff_ne.mpr h
  | _ => rfl

/-- Settles O41: the halt word is halt's, and every other word that decodes is the word of what its
fields say, which is then no TRAP spelled as the halt word. -/
theorem encodeOfDecode : Obligations.EncodeOfDecode := by
  intro w i h
  cases hw : isHaltWord w with
  | true =>
    obtain rfl := isHaltWord_iff.mp hw
    cases h
    exact ⟨rfl, rfl⟩
  | false =>
    have hi : encode i = w :=
      encode_of_decodeFields ((decodeUnder_of_not_halt hw).symm.trans h)
    refine ⟨hi, wellFormed_of_encode_ne fun hhalt => ?_⟩
    rw [← hi, isHaltWord, hhalt] at hw
    exact absurd hw (by decide)

/-! ## Words with unused bits, sample words -/

/-- Settles O28: in each format the decoder's arm is `checkUnused` on the format's unused bits, and
the halt word is tested first. -/
theorem unusedBitsAreStrict : Obligations.UnusedBitsAreStrict := by
  refine ⟨fun dr sr1 sr2 u w hw => ?_, fun dr sr1 sr2 u w hw => ?_, fun base u u' w hw => ?_,
    fun u w hw => ?_, fun dr sr u w hw => ?_, fun base u u' w hw => ?_, fun u v w hw => ?_,
    fun w => ?_⟩
  · exact lax_and_strict_of_checkUnused (decodeFields_addReg · hw.symm) beq_iff_eq
  · exact lax_and_strict_of_checkUnused (decodeFields_andReg · hw.symm) beq_iff_eq
  · exact lax_and_strict_of_checkUnused (decodeFields_jsrr · hw.symm) beq_zero_and_beq_zero_iff
  · exact lax_and_strict_of_checkUnused (decodeFields_rti · hw.symm) beq_iff_eq
  · exact lax_and_strict_of_checkUnused (decodeFields_not · hw.symm) beq_iff_eq
  · exact lax_and_strict_of_checkUnused (decodeFields_jmp · hw.symm) beq_zero_and_beq_zero_iff
  · exact lax_and_strict_of_checkUnused (decodeFields_trap · hw.symm) beq_iff_eq
  · simp only [decode_eq_decodeUnder, decodeUnder, isHaltWord_iff]

/-- Settles O42, by running the decoder on the fourteen words. -/
theorem sampleWordsDecode : Obligations.SampleWordsDecode := by
  unfold Obligations.SampleWordsDecode
  decide

end Sys2Proof
end

section
/-! PROOF. The reserved opcode (spec/30_encoding.md R56). -/

namespace Sys2Proof.Machine

/-- The reserved row's exec raises IllegalInstruction with the whole word (R56). -/
theorem exec_reserved {s : State} (hpc : Fetchable s) (low : BitVec 12) :
    exec (.reserved low) s =
      .next (s.takeFault (.illegalInstruction (encode (.reserved low)))) :=
  exec_of_body_error Instr.noConfusion hpc rfl

/-- Settles O25: a word of opcode 1101 is the reserved instruction's of its low twelve bits, to which
it decodes. -/
theorem reservedOpcodeIsIllegal : Obligations.ReservedOpcodeIsIllegal := by
  refine ⟨fun low s hpc => exec_reserved hpc low, fun s w ⟨hrun, hbp⟩ hpc hfetch hop => ?_⟩
  have hw : encode (.reserved (w.extractLsb' 0 12)) = w := low12_layout_iff.mpr ⟨hop, rfl⟩
  have hd : decode (s.mem.read s.pc.toNat) = .ok (.reserved (w.extractLsb' 0 12)) := by
    nth_rw 1 [hfetch, ← hw]
    exact decodeOfEncode (.reserved _) true rfl
  rw [step_of_decode hrun hbp hd, exec_reserved hpc, hw]
  rfl

end Sys2Proof.Machine
end

section
/-! PROOF. The run loop (spec/40_cycle.md R61 to R73): what an iteration of it can do to runState, how
it starts, and the branch that never leaves it. -/

namespace Sys2Proof.Machine

/-! ## Every instruction answers -/

/-- A completed execute part leaves runState. -/
theorem body_runState {i : Instr} {s u : State} (h : body i s = .ok u) :
    u.runState = s.runState := by
  rw [body_eq_effect] at h
  obtain ⟨e, -, rfl⟩ := exists_of_exceptMap_eq_ok h
  exact e.apply_runState s

/-- Settles O44: the halt word stops the run, and any other instruction is an atomic execution, which
faults or completes. -/
theorem everyInstructionHasANextState : Obligations.EveryInstructionHasANextState := by
  intro i s
  by_cases hi : i = .halt
  · subst hi
    exact ⟨_, rfl, .inr (.inl rfl)⟩
  · rw [exec_eq_atomically hi]
    rcases atomically_cases (op := i.opcode) (s := s) (body := body i) rfl with
      ⟨k, ht, -⟩ | ⟨u, -, hb, ht⟩
    · exact ⟨_, ht, .inr (.inr ⟨k, rfl⟩)⟩
    · exact ⟨_, ht, .inl (body_runState (s := s.setPc (s.pc + 1#16)) (u := u) hb)⟩

/-! ## The halt word and Illegal words -/

/-- The halt word and no other decodes to halt (R58, R63). -/
theorem decode_eq_halt_iff {w : Word} : decode w = .ok .halt ↔ w = 0xF025#16 :=
  ⟨eq_haltWord_of_decode, fun h => h ▸ rfl⟩

theorem step_of_haltWord {s : State} (h : AboutToFetch s)
    (hw : s.mem.read s.pc.toNat = 0xF025#16) : step s = .next (s.setRunState .halted) :=
  step_of_decode h.running h.noBreak (decode_eq_halt_iff.mpr hw)

/-- Settles O24: the halt word decodes to halt, whose exec writes runState alone. -/
theorem haltWordStopsRun : Obligations.HaltWordStopsRun :=
  ⟨fun _ => rfl, fun _ h hw => step_of_haltWord h hw⟩

theorem ne_top_of_fetchable {s : State} (h : Fetchable s) : s.pc ≠ 0xFFFF#16 := fun htop =>
  absurd h (by simp [Fetchable, htop])

/-- Settles O43: below the top of memory the fetch increment is in range, so an Illegal word raises its
own fault, and the decoder reports the word as it is. -/
theorem stepRunsDecodedInstruction : Obligations.StepRunsDecodedInstruction := by
  refine ⟨fun s i h hd => step_of_decode h.running h.noBreak hd, fun s e h hpc hd => ?_⟩
  obtain ⟨w⟩ := e
  obtain rfl := decode_error_word hd
  rw [step_of_illegal h.running h.noBreak hd, raiseIllegal_eq, if_neg (ne_top_of_fetchable hpc)]
  rfl

/-! ## The run states -/

/-- What one iteration can do to runState: stop at a breakpoint, stop at the halt word, take a fault,
or go on running (R72). -/
theorem step_runState_cases {s t : State} (h : step s = .next t) :
    (s.pc ∈ s.bp ∧ t = s.setRunState .breakpointed) ∨
    (s.pc ∉ s.bp ∧ s.mem.read s.pc.toNat = 0xF025#16 ∧ t = s.setRunState .halted) ∨
    (s.pc ∉ s.bp ∧ s.mem.read s.pc.toNat ≠ 0xF025#16 ∧
      ((∃ k, t = s.takeFault k) ∨ t.runState = .running)) := by
  obtain ⟨hrun, ⟨hb, ht⟩ | ⟨hb, i, hd, he⟩ | ⟨hb, w, hd, hw⟩⟩ := step_cases h
  · exact .inl ⟨hb, ht⟩
  · have hword : s.mem.read s.pc.toNat = 0xF025#16 ↔ i = .halt := by
      rw [← decode_eq_halt_iff, hd, Except.ok.injEq]
    rcases exec_cases he with ⟨hi, ht⟩ | ⟨hi, k, ht, -⟩ | ⟨hi, -, u, hu, rfl⟩
    · exact .inr (.inl ⟨hb, hword.mpr hi, ht⟩)
    · exact .inr (.inr ⟨hb, mt hword.mp hi, .inl ⟨k, ht⟩⟩)
    · exact .inr (.inr ⟨hb, mt hword.mp hi, .inr ((body_runState hu).trans hrun)⟩)
  · have hword : s.mem.read s.pc.toNat ≠ 0xF025#16 := by
      rw [Ne, ← decode_eq_halt_iff, hd]
      exact nofun
    rw [raiseIllegal_eq] at hw
    exact .inr (.inr ⟨hb, hword, .inl ⟨_, (Host.Outcome.next.inj hw).symm⟩⟩)

/-- Settles O49: each outcome of an iteration has its own runState, and the ones that stop the run
write nothing else. -/
theorem runStateTransitions : Obligations.RunStateTransitions := by
  refine ⟨fun s hs => step_of_not_running hs, fun s t _ h => ?_⟩
  rcases step_runState_cases h with ⟨hb, rfl⟩ | ⟨hb, hw, rfl⟩ | ⟨hb, hw, ⟨k, rfl⟩ | ht⟩
  · simp [hb]
  · simp [hb, hw]
  · simp [hb, hw]
  · simp [hb, hw, ht]

/-- Settles O52: a terminal state is where the loop stays (`RunEnds.unique`). -/
theorem runEndIsUnique : Obligations.RunEndIsUnique := fun _ _ _ ht hu => ht.unique hu

/-! ## The start of a run, and breakpoints -/

theorem State.startRun_pc_toNat (s : State) {start : Nat} (h : start ≤ 0xFFFF) :
    (s.startRun start).pc.toNat = start := by
  simp only [State.startRun, BitVec.toNat_ofNat]
  omega

/-- Settles O54: what Run does before its loop is `startRun`. -/
theorem runStartsAtItsArgument : Obligations.RunStartsAtItsArgument :=
  ⟨fun s _ hs hstart => ⟨_, hostCall_run hs hstart, s.startRun_pc_toNat hstart,
      rfl, rfl, rfl, rfl, rfl, rfl, rfl, rfl, rfl⟩,
    fun _ _ hs hstart => hostCall_run_of_outside hs hstart⟩

/-- No host operation removes a breakpoint: only AddBreakpoint changes the set, and it adds to it
(R28). -/
theorem mem_bp_of_hostCall {c : HostCall} {s t : State} {r : HostReply}
    (h : hostCall c s = .next (t, r)) {a : Word} (ha : a ∈ s.bp) : a ∈ t.bp := by
  rcases hostCall_next_cases h with rfl | ⟨_, _, -, -, rfl⟩ | ⟨_, -, rfl⟩ | ⟨_, -, rfl⟩ |
    ⟨_, -, rfl⟩
  · exact ha
  · exact ha
  · exact ha
  · exact Breakpoints.mem_insert.mpr (.inr ha)
  · exact ha

/-- Settles O26: the breakpoint check is an iteration's first test, and a Run's start leaves the
breakpoints. -/
theorem breakpointStopsRun : Obligations.BreakpointStopsRun := by
  refine ⟨fun s hrun hb => step_of_break hrun hb, fun s start t r hstart hb h => ?_,
    fun s t h => ?_, fun c s t r h a => mem_bp_of_hostCall h⟩
  · obtain ⟨hs, -⟩ := hostCall_next h
    rw [hostCall_run hs hstart] at h
    cases h
    exact ⟨step_of_break rfl hb, rfl⟩
  · obtain ⟨-, hbp, -⟩ := consoleChangesOnlyByTraps s t h
    exact hbp

/-! ## Cost -/

/-- Only TRAP's effects have a cost of their own (R70). -/
theorem Effect.apply_cost_of_not_trap {i : Instr} {s : State} {e : Effect}
    (ha : e.AllowedFor i s) (hi : ∀ vect, i ≠ .trap vect) : (e.apply s).cost = s.cost := by
  cases e with
  | input c =>
    obtain ⟨rfl, -⟩ := ha
    exact absurd rfl (hi _)
  | output cs tc => rcases ha with rfl | rfl <;> exact absurd rfl (hi _)
  | _ => rfl

/-- The cost of a trap service that has appended so many characters (R95, R96, R97). -/
def serviceCost (vect : BitVec 8) (appended : Nat) : Nat :=
  if vect = 0x20 then 28 else if vect = 0x21 then 36 else 40 + 27 * appended

/-- A trap service costs by its vector, and x22 by what it has appended to Out. -/
theorem Effect.apply_cost_of_trap {vect : BitVec 8} {s : State} {e : Effect}
    (h : trapEffect vect s = .ok e) : (e.apply s).cost =
      s.cost + serviceCost vect ((e.apply s).output.length - s.output.length) := by
  unfold trapEffect at h
  split at h
  next h20 =>
    cases hc : s.input[s.cursor]? with
    | none => simp [hc] at h
    | some c =>
      obtain rfl : Effect.input c = e := by simpa [hc] using h
      rw [serviceCost, if_pos h20]
      rfl
  next h20 =>
    split at h
    next h21 =>
      cases h
      rw [serviceCost, if_neg h20, if_pos h21]
      rfl
    next h21 =>
      obtain ⟨cs, rfl⟩ : ∃ cs, e = .output cs (40 + 27 * cs.length) := by
        split at h
        next =>
          obtain ⟨cs, -, rfl⟩ := exists_of_exceptMap_eq_ok h
          exact ⟨cs, rfl⟩
        next => cases h
      rw [serviceCost, if_neg h20, if_neg h21]
      simp [Effect.apply]

/-- Settles O33: a completed instruction adds its base cost to what its effect costs, and a stop writes
runState alone. -/
theorem costIsBaseCostPlusTrapCost : Obligations.CostIsBaseCostPlusTrapCost := by
  intro i s t hrun h
  refine ⟨fun ht => ?_, fun ht => ?_⟩
  · obtain ⟨-, e, he, rfl⟩ := completed_with_effect h ht
    rw [State.addCost_cost, Nat.add_comm (Config.baseCost _), ← Nat.add_assoc]
    congr 1
    split
    next vect => exact Effect.apply_cost_of_trap he
    next hi => exact Effect.apply_cost_of_not_trap (effectOf_allowed he) hi
  · rcases exec_stops_or_completes h with ⟨r, -, rfl⟩ | ⟨e, -, rfl⟩
    · rfl
    · exact absurd ((e.apply_runState (s.setPc (s.pc + 1#16))).trans hrun) ht

/-! ## A branch to itself -/

/-- About to run BRnzp #-1 with some condition code set (R80's example). -/
structure SpinsInPlace (s : State) : Prop where
  fetch : AboutToFetch s
  fetchable : Fetchable s
  word : s.mem.read s.pc.toNat = 0x0FFF#16
  flags : s.psr.extractLsb' 0 3 ≠ 0

/-- A branch with every selector is taken when some condition code is set. -/
theorem branchTaken_nzp {psr : Word} (h : psr.extractLsb' 0 3 ≠ 0) :
    branchTaken true true true psr = true := by
  by_contra hnot
  obtain ⟨h2, h1, h0⟩ : psr.getLsbD 2 = false ∧ psr.getLsbD 1 = false ∧ psr.getLsbD 0 = false := by
    simpa [branchTaken_iff] using hnot
  refine h (BitVec.eq_of_getLsbD_eq fun b hb => ?_)
  rw [BitVec.getLsbD_extractLsb', Nat.zero_add]
  obtain rfl | rfl | rfl : b = 0 ∨ b = 1 ∨ b = 2 := by omega
  · rw [h0]; rfl
  · rw [h1]; rfl
  · rw [h2]; rfl

/-- BR #-1 goes back to its own address (R85). -/
theorem pcRelative9_neg_one {s : State} (hpc : Fetchable s) :
    pcRelative9 (s.setPc (s.pc + 1#16)) 0x1FF#9 = .ok s.pc := by
  have hsum : (s.pc.toNat : Int) = pcRelativeSum s 0x1FF#9 := by
    have hoff : (0x1FF#9).toInt = -1 := by decide
    rw [pcRelativeSum, hoff]
    omega
  rw [pcRelative9_setPc_succ hpc, checkAddr_of_eq hsum]

namespace SpinsInPlace

/-- One iteration changes the cost alone (R65). -/
theorem step_eq {s : State} (h : SpinsInPlace s) :
    step s = .next (s.addCost (Config.baseCost 0b0000)) := by
  have hd : decode (s.mem.read s.pc.toNat) = .ok (.br true true true 0x1FF#9) := by
    rw [h.word]
    decide
  have heff : effectOf (.br true true true 0x1FF#9) (s.setPc (s.pc + 1#16)) = .ok (.jump s.pc) := by
    rw [effectOf, State.setPc_psr, if_pos (branchTaken_nzp h.flags), pcRelative9_neg_one h.fetchable]
    rfl
  rw [step_of_decode h.fetch.running h.fetch.noBreak hd,
    exec_of_effect Instr.noConfusion h.fetchable heff]
  rfl

/-- The situation does not depend on the cost. -/
theorem addCost {s : State} (h : SpinsInPlace s) (c : Nat) : SpinsInPlace (s.addCost c) :=
  ⟨⟨h.fetch.running, h.fetch.noBreak⟩, h.fetchable, h.word, h.flags⟩

theorem runFor_eq {s : State} (h : SpinsInPlace s) (n : Nat) :
    runFor n s = s.addCost (n * Config.baseCost 0b0000) := by
  induction n generalizing s with
  | zero => simp [runFor, State.addCost]
  | succ n ih =>
    have hstep : runFor (n + 1) s = runFor n (s.addCost (Config.baseCost 0b0000)) := by
      simp only [runFor, h.step_eq]
    rw [hstep, ih (h.addCost _)]
    simp only [State.addCost, Nat.succ_mul, Nat.add_assoc, Nat.add_comm]

/-- However far it is followed, the run is still Running. -/
theorem not_runEnds {s : State} (h : SpinsInPlace s) (t : State) : ¬ RunEnds s t := by
  rintro ⟨n, rfl, ht⟩
  rw [h.runFor_eq] at ht
  exact RunState.ne_running_of_isTerminal ht h.fetch.running

end SpinsInPlace

/-- Settles O51, by induction on the iterations: each comes back to its own start with a larger
cost. -/
theorem branchToItselfNeverEnds : Obligations.BranchToItselfNeverEnds := by
  intro s n hfetch hpc hword hflags
  have h : SpinsInPlace s := ⟨hfetch, hpc, hword, hflags⟩
  exact ⟨h.runFor_eq n, fun ⟨t, ht⟩ => h.not_runEnds t ht⟩

end Sys2Proof.Machine
end

section
/-! PROOF. The operate instructions ADD, AND and NOT, and the condition-code unit
(spec/41_operate.md). -/

namespace Sys2Proof.Machine

/-! ## Completion -/

/-- An instruction whose effect is a register result completes with it, its condition codes, and
nothing else. -/
theorem exec_of_result {i : Instr} {s : State} {dr : Reg} {v : Word} (hi : i ≠ .halt)
    (hpc : Fetchable s) (h : effectOf i (s.setPc (s.pc + 1#16)) = .ok (.result dr v)) :
    ∃ t, exec i s = .next t ∧ ResultWithFlags s t dr v (Config.baseCost i.opcode) :=
  ⟨_, exec_of_effect hi hpc h, resultWithFlags_of_result hpc ..⟩

/-! ## Operands and results, in the statements' terms -/

/-- imm5 is sign-extended to 16 bits (R74). -/
theorem immOperand_eq_ofInt (imm : BitVec 5) : immOperand imm = BitVec.ofInt 16 imm.toInt :=
  immOperand_eq_signExtend imm

/-- `x XOR 0xFFFF` is the complement (R78). -/
theorem aluNot_eq_not (a : Word) : aluNot a = ~~~ a :=
  BitVec.xor_allOnes

/-! ## Illegal words (R57) -/

/-- A word whose fields check answers that its unused bits differ is Illegal, if its opcode is not
the halt word's. -/
theorem decode_eq_error_of_checkUnused {w : Word} {op : BitVec 4} {i : Instr} {asFixed : Bool}
    (hop : opcodeField w = op) (hne : op ≠ 0b1111#4)
    (h : decodeFields true w = checkUnused true asFixed w i) (hdiffers : asFixed = false) :
    decode w = .error (.unusedBits w) := by
  have hhalt : isHaltWord w = false := isHaltWord_of_opcode (hop ▸ hne)
  rw [decode_eq_decodeUnder, decodeUnder_of_not_halt hhalt, h, hdiffers, checkUnused_differs]

/-! ## Condition codes (R75) -/

/-- setCC leaves exactly one of N, Z and P set (R75). -/
theorem setCC_low_one_hot (v psr : Word) :
    (setCC v psr).extractLsb' 0 3 = 0b100#3 ∨ (setCC v psr).extractLsb' 0 3 = 0b010#3 ∨
      (setCC v psr).extractLsb' 0 3 = 0b001#3 := by
  rw [setCC_low]
  rcases ccBits_cases v with ⟨-, -, hn⟩ | ⟨-, hz⟩ | ⟨-, -, hp⟩
  · exact .inl hn
  · exact .inr (.inl hz)
  · exact .inr (.inr hp)

/-! ## The obligations -/

/-- Settles O1: both forms have the sum as their effect, and a register-mode word is checked for its
two unused bits. -/
theorem addWritesSumAndFlags : Obligations.AddWritesSumAndFlags := by
  refine ⟨fun dr sr1 sr2 s hpc => ?_, fun dr sr1 imm s hpc => ?_, fun dr sr1 sr2 => ?_,
    fun dr sr1 imm => ?_, fun w hop hmode hu => ?_⟩
  · exact exec_of_result Instr.noConfusion hpc rfl
  · rw [← immOperand_eq_ofInt]
    exact exec_of_result Instr.noConfusion hpc rfl
  · exact decodeOfEncode (.addReg dr sr1 sr2) true rfl
  · exact decodeOfEncode (.addImm dr sr1 imm) true rfl
  · have hw := reg_reg_reg_layout_iff.mpr ⟨hop, rfl, rfl, hmode, rfl, rfl⟩
    exact decode_eq_error_of_checkUnused hop (by decide) (decodeFields_addReg true hw)
      (beq_false_of_ne hu)

/-- Settles O2: both forms have the conjunction as their effect, and a register-mode word is checked
for its two unused bits. -/
theorem andWritesConjunctionAndFlags : Obligations.AndWritesConjunctionAndFlags := by
  refine ⟨fun dr sr1 sr2 s hpc => ?_, fun dr sr1 imm s hpc => ?_, fun dr sr1 sr2 => ?_,
    fun dr sr1 imm => ?_, fun w hop hmode hu => ?_⟩
  · exact exec_of_result Instr.noConfusion hpc rfl
  · rw [← immOperand_eq_ofInt]
    exact exec_of_result Instr.noConfusion hpc rfl
  · exact decodeOfEncode (.andReg dr sr1 sr2) true rfl
  · exact decodeOfEncode (.andImm dr sr1 imm) true rfl
  · have hw := reg_reg_reg_layout_iff.mpr ⟨hop, rfl, rfl, hmode, rfl, rfl⟩
    exact decode_eq_error_of_checkUnused hop (by decide) (decodeFields_andReg true hw)
      (beq_false_of_ne hu)

/-- Settles O3: the effect is the complement, and the word is checked for its six fixed bits. -/
theorem notWritesComplementAndFlags : Obligations.NotWritesComplementAndFlags := by
  refine ⟨fun dr sr s hpc => ?_, fun dr sr => ?_, fun w hop hu => ?_⟩
  · rw [← aluNot_eq_not]
    exact exec_of_result Instr.noConfusion hpc rfl
  · exact decodeOfEncode (.not dr sr) true rfl
  · have hw := reg_reg_low6_layout_iff.mpr ⟨hop, rfl, rfl, rfl⟩
    exact decode_eq_error_of_checkUnused hop (by decide) (decodeFields_not true hw)
      (beq_false_of_ne hu)

/-- Settles O4: the three codes are the sign's three cases, and the other bits are the old ones. -/
theorem conditionCodesFollowSign : Obligations.ConditionCodesFollowSign := fun v psr =>
  ⟨psrN_setCC v psr, psrZ_setCC v psr, psrP_setCC v psr, setCC_extract v psr,
    setCC_low_one_hot v psr⟩

end Sys2Proof.Machine
end

section
/-! PROOF. The control instructions BR, JMP, JSR, JSRR and RTI (spec/42_control.md). -/

namespace Sys2Proof.Machine

/-! ## Completion and faults -/

/-- An instruction whose effect depends on an address check completes where the sum is an address. -/
theorem exec_of_address {i : Instr} {s : State} {sum : Int} {f : Word → Effect} {a : Word}
    (hi : i ≠ .halt) (hpc : Fetchable s)
    (heff : effectOf i (s.setPc (s.pc + 1#16)) = (checkAddr sum).map f)
    (ha : (a.toNat : Int) = sum) :
    exec i s = .next (((f a).apply (s.setPc (s.pc + 1#16))).addCost (Config.baseCost i.opcode)) := by
  rw [checkAddr_of_eq ha] at heff
  exact exec_of_effect hi hpc heff

/-- Where the sum is no address, that instruction takes the check's fault (R38). -/
theorem exec_of_outOfRange {i : Instr} {s : State} {sum : Int} {f : Word → Effect}
    (hi : i ≠ .halt) (hpc : Fetchable s)
    (heff : effectOf i (s.setPc (s.pc + 1#16)) = (checkAddr sum).map f) (hout : OutOfRange sum) :
    exec i s = .next (s.takeFault (.addressOutOfRange sum)) := by
  rw [checkAddr_of_outside hout] at heff
  exact exec_of_body_error hi hpc (body_eq_error_iff_effect.mpr heff)

/-- A completed call writes R7 and the pc, and nothing else but the cost. -/
theorem callsTo_of_call (s : State) (target : Word) (c : Nat) :
    CallsTo s (((Effect.call target).apply (s.setPc (s.pc + 1#16))).addCost c) target c where
  link := ⟨by simp [Effect.apply], fun q hq => by simp [Effect.apply, hq]⟩
  pc := rfl
  psr := rfl
  memory := rfl
  cost := rfl
  host := ⟨rfl, rfl, rfl, rfl, rfl⟩

/-! ## Effects, from the state before the fetch -/

/-- A taken branch jumps to its PC-relative address (R80). -/
theorem effectOf_br_of_taken {s : State} (hpc : Fetchable s) {n z p : Bool}
    (h : branchTaken n z p s.psr = true) (off : BitVec 9) :
    effectOf (.br n z p off) (s.setPc (s.pc + 1#16)) =
      (checkAddr (pcRelativeSum s off)).map .jump := by
  rw [effectOf, State.setPc_psr, if_pos h, pcRelative9_setPc_succ hpc]

/-- A branch not taken computes no target and goes to A + 1 (R80). -/
theorem effectOf_br_of_not_taken {s : State} {n z p : Bool} (h : ¬ branchTaken n z p s.psr = true)
    (off : BitVec 9) :
    effectOf (.br n z p off) (s.setPc (s.pc + 1#16)) = .ok (.jump (s.pc + 1#16)) := by
  rw [effectOf, State.setPc_psr, if_neg h, State.setPc_pc]

/-- JSR calls its PC-relative address (R82). -/
theorem effectOf_jsr {s : State} (hpc : Fetchable s) (off : BitVec 11) :
    effectOf (.jsr off) (s.setPc (s.pc + 1#16)) =
      (checkAddr (pcRelativeSum s off)).map .call := by
  rw [effectOf, pcRelative11_setPc_succ hpc]

/-- JSRR calls what BaseR holds once R7 holds A + 1 (R83). -/
theorem exec_jsrr_calls {s : State} (hpc : Fetchable s) (base : Reg) :
    ∃ t, exec (.jsrr base) s = .next t ∧
      CallsTo s t (if base = .r7 then s.pc + 1#16 else s.reg base) (Config.baseCost 0b0100) := by
  have htarget : registerTarget ((s.setPc (s.pc + 1#16)).setReg .r7 (s.pc + 1#16)) base =
      if base = .r7 then s.pc + 1#16 else s.reg base := by
    rw [registerTarget, State.setReg_reg, State.setPc_reg]
  rw [← htarget]
  exact ⟨_, exec_of_effect Instr.noConfusion hpc rfl, callsTo_of_call ..⟩

/-! ## Illegal words (R57) -/

/-- Two unused fields differ from the format when one of them is not zero. -/
theorem beq_zero_and_beq_zero_eq_false {n k : Nat} {u : BitVec n} {u' : BitVec k}
    (h : u ≠ 0 ∨ u' ≠ 0) : (u == 0 && u' == 0) = false :=
  Bool.eq_false_iff.mpr (mt beq_zero_and_beq_zero_iff.mp (not_and_or.mpr h))

/-! ## The obligations -/

/-- Settles O7: a taken branch's effect goes through the address check, and a branch not taken has
A + 1 as its effect. -/
theorem branchFollowsConditionCodes : Obligations.BranchFollowsConditionCodes := by
  refine ⟨fun n z p off s hpc hcc => ?_, fun n z p off s hpc hcc => ?_, fun n z p off => ?_⟩
  · have heff := effectOf_br_of_taken hpc (branchTaken_iff.mpr hcc) off
    exact ⟨fun a ha => exec_of_address Instr.noConfusion hpc heff ha,
      fun hout => exec_of_outOfRange Instr.noConfusion hpc heff hout⟩
  · have heff := effectOf_br_of_not_taken (mt branchTaken_iff.mp hcc) off
    exact exec_of_effect Instr.noConfusion hpc heff
  · exact decodeOfEncode (.br n z p off) true rfl

/-- Settles O8: the effect is a jump to the register, and the word is checked for its two unused
fields. -/
theorem jumpGoesToRegister : Obligations.JumpGoesToRegister := by
  refine ⟨fun base s hpc => ?_, fun base => ?_, ?_, fun w hop hu => ?_⟩
  · exact exec_of_effect (i := .jmp base) Instr.noConfusion hpc rfl
  · exact decodeOfEncode (.jmp base) true rfl
  · exact decodeOfEncode (.jmp .r7) true rfl
  · have hw := jmp_layout_iff.mpr ⟨hop, rfl, rfl, rfl⟩
    exact decode_eq_error_of_checkUnused hop (by decide) (decodeFields_jmp true hw)
      (beq_zero_and_beq_zero_eq_false hu)

/-- Settles O9: the call is the effect only where the target passes the address check. -/
theorem jsrLinksAndJumps : Obligations.JsrLinksAndJumps := by
  refine ⟨fun off s hpc => ?_, fun off => decodeOfEncode (.jsr off) true rfl⟩
  have heff := effectOf_jsr hpc off
  exact ⟨fun a ha => ⟨_, exec_of_address Instr.noConfusion hpc heff ha, callsTo_of_call ..⟩,
    fun hout => exec_of_outOfRange Instr.noConfusion hpc heff hout⟩

/-- Settles O10: the target is read after the link is written, so R7 as BaseR gives the link, and the
word is checked for its two unused fields. -/
theorem jsrrLinksBeforeReadingBase : Obligations.JsrrLinksBeforeReadingBase := by
  refine ⟨fun base s hpc hbase => ?_, fun s hpc => exec_jsrr_calls hpc .r7, fun base => ?_,
    fun w hop hmode hu => ?_⟩
  · have hcall := exec_jsrr_calls hpc base
    rwa [if_neg hbase] at hcall
  · exact decodeOfEncode (.jsrr base) true rfl
  · have hw := jsrr_layout_iff.mpr ⟨hop, hmode, rfl, rfl, rfl⟩
    exact decode_eq_error_of_checkUnused hop (by decide) (decodeFields_jsrr true hw)
      (beq_zero_and_beq_zero_eq_false hu)

/-- Settles O11: `returnFromInterrupt` by its three cases, and RTI's word checked for its twelve
unused bits. -/
theorem rtiPopsPcAndPsr : Obligations.RtiPopsPcAndPsr := by
  refine ⟨fun s hpc hM hsp => ?_, fun s hpc hM => ?_, fun s hpc hM hsp => ?_, ?_,
    fun w hop hne => ?_⟩
  · have hpop := returnFromInterrupt_of_room (s := s.setPc (s.pc + 1#16)) hM hsp
    have hsecond : (s.reg .r6 + 1#16).toNat = (s.reg .r6).toNat + 1 := by
      simp only [BitVec.toNat_add, BitVec.toNat_ofNat]; omega
    refine ⟨_, exec_of_body (i := .rti) Instr.noConfusion hpc hpop, rfl, ?_, ?_, rfl, rfl,
      ⟨rfl, rfl, rfl, rfl, rfl⟩⟩
    · simp [State.memRead, hsecond]
    · exact ⟨by simp, fun q hq => by simp [hq]⟩
  · exact exec_of_body_error (i := .rti) Instr.noConfusion hpc
      (returnFromInterrupt_of_mode (s := s.setPc (s.pc + 1#16)) hM)
  · exact exec_of_body_error (i := .rti) Instr.noConfusion hpc
      (returnFromInterrupt_of_top (s := s.setPc (s.pc + 1#16)) hM hsp)
  · exact decodeOfEncode .rti true rfl
  · have hw := low12_layout_iff.mpr ⟨hop, rfl⟩
    have hu : w.extractLsb' 0 12 ≠ 0 := fun h0 => hne (low12_layout_iff.mpr ⟨hop, h0⟩).symm
    exact decode_eq_error_of_checkUnused hop (by decide) (decodeFields_rti true hw)
      (beq_false_of_ne hu)

end Sys2Proof.Machine
end

section
/-! PROOF. The data-movement instructions LD, LDI, ST, STI, LDR, STR and LEA
(spec/43_data_movement.md). Each is an address check followed by one effect, so
`exec_completes_or_outOfRange` gives both of its outcomes. -/

namespace Sys2Proof.Machine

/-! ## Completion and faults -/

/-- A completed load without condition codes writes one register, and nothing else. -/
theorem resultOnly_of_load {s : State} (hpc : Fetchable s) (dr : Reg) (v : Word) (c : Nat) :
    ResultOnly s (((Effect.load dr v).apply (s.setPc (s.pc + 1#16))).addCost c) dr v c where
  register := ⟨by simp [Effect.apply], fun q hq => by simp [Effect.apply, hq]⟩
  psr := rfl
  memory := rfl
  advance := ⟨pc_succ_toNat hpc, rfl⟩
  host := ⟨rfl, rfl, rfl, rfl, rfl⟩

/-- An instruction whose effect depends on an address check has two outcomes: at an address it
completes in a state that meets what the effect brings about, elsewhere it takes the check's fault. -/
theorem exec_completes_or_outOfRange {i : Instr} {s : State} {sum : Int} {f : Word → Effect}
    {Post : Word → State → Prop} (hi : i ≠ .halt) (hpc : Fetchable s)
    (heff : effectOf i (s.setPc (s.pc + 1#16)) = (checkAddr sum).map f)
    (hpost : ∀ a, Post a
      (((f a).apply (s.setPc (s.pc + 1#16))).addCost (Config.baseCost i.opcode))) :
    (∀ a : Word, (a.toNat : Int) = sum → ∃ t, exec i s = .next t ∧ Post a t) ∧
      (OutOfRange sum →
        exec i s = .next { s with runState := .faulted (.addressOutOfRange sum) }) :=
  ⟨fun a ha => ⟨_, exec_of_address hi hpc heff ha, hpost a⟩,
    fun hout => exec_of_outOfRange hi hpc heff hout⟩

/-! ## Effects, from the state before the fetch (R85) -/

/-- What is done at an indirect address is done at the word its pointer holds, where the pointer
passes the address check. -/
theorem map_indirect_setPc_succ {β : Type} {s : State} (hpc : Fetchable s) (off : BitVec 9)
    (f : Word → β) :
    (indirect (s.setPc (s.pc + 1#16)) off).map f =
      (checkAddr (pcRelativeSum s off)).map fun p => f (s.mem.read p.toNat) := by
  rw [indirect, pcRelative9_setPc_succ hpc]
  cases checkAddr (pcRelativeSum s off) <;> rfl

/-- LD's result is the word at its PC-relative address (R86). -/
theorem effectOf_ld {s : State} (hpc : Fetchable s) (dr : Reg) (off : BitVec 9) :
    effectOf (.ld dr off) (s.setPc (s.pc + 1#16)) =
      (checkAddr (pcRelativeSum s off)).map fun a => .result dr (s.mem.read a.toNat) := by
  rw [effectOf, pcRelative9_setPc_succ hpc]
  rfl

/-- LDI loads the word its pointer leads to (R87). -/
theorem effectOf_ldi {s : State} (hpc : Fetchable s) (dr : Reg) (off : BitVec 9) :
    effectOf (.ldi dr off) (s.setPc (s.pc + 1#16)) =
      (checkAddr (pcRelativeSum s off)).map
        fun p => .load dr (s.mem.read (s.mem.read p.toNat).toNat) := by
  rw [effectOf, map_indirect_setPc_succ hpc]
  rfl

/-- ST stores at its PC-relative address (R88). -/
theorem effectOf_st {s : State} (hpc : Fetchable s) (sr : Reg) (off : BitVec 9) :
    effectOf (.st sr off) (s.setPc (s.pc + 1#16)) =
      (checkAddr (pcRelativeSum s off)).map fun a => .store a (s.reg sr) := by
  rw [effectOf, pcRelative9_setPc_succ hpc, State.setPc_reg]

/-- STI stores at the address its pointer holds (R89). -/
theorem effectOf_sti {s : State} (hpc : Fetchable s) (sr : Reg) (off : BitVec 9) :
    effectOf (.sti sr off) (s.setPc (s.pc + 1#16)) =
      (checkAddr (pcRelativeSum s off)).map
        fun p => .store (s.mem.read p.toNat) (s.reg sr) := by
  rw [effectOf, map_indirect_setPc_succ hpc, State.setPc_reg]

/-- LDR's result is the word at its base + offset address (R90). -/
theorem effectOf_ldr (s : State) (dr base : Reg) (off : BitVec 6) :
    effectOf (.ldr dr base off) (s.setPc (s.pc + 1#16)) =
      (checkAddr (baseOffsetSum s base off)).map fun a => .result dr (s.mem.read a.toNat) := by
  rw [effectOf, baseOffset_setPc]
  rfl

/-- STR stores at its base + offset address (R91). -/
theorem effectOf_str (s : State) (sr base : Reg) (off : BitVec 6) :
    effectOf (.str sr base off) (s.setPc (s.pc + 1#16)) =
      (checkAddr (baseOffsetSum s base off)).map fun a => .store a (s.reg sr) := by
  rw [effectOf, baseOffset_setPc, State.setPc_reg]

/-- LEA's result is its PC-relative address itself (R92). -/
theorem effectOf_lea {s : State} (hpc : Fetchable s) (dr : Reg) (off : BitVec 9) :
    effectOf (.lea dr off) (s.setPc (s.pc + 1#16)) =
      (checkAddr (pcRelativeSum s off)).map fun a => .result dr a := by
  rw [effectOf, pcRelative9_setPc_succ hpc]

/-! ## The obligations -/

/-- Settles O12: the effect is a result with condition codes, the word at the checked address. -/
theorem ldLoadsPcRelative : Obligations.LdLoadsPcRelative := by
  refine ⟨fun dr off s hpc => ?_, fun dr off => decodeOfEncode (.ld dr off) true rfl⟩
  exact exec_completes_or_outOfRange Instr.noConfusion hpc (effectOf_ld hpc dr off)
    fun _ => resultWithFlags_of_result hpc ..

/-- Settles O13: the effect is a register result alone, so the status register is the old one. -/
theorem ldiLoadsThroughPointer : Obligations.LdiLoadsThroughPointer := by
  refine ⟨fun dr off s hpc => ?_, fun dr off => decodeOfEncode (.ldi dr off) true rfl⟩
  exact exec_completes_or_outOfRange Instr.noConfusion hpc (effectOf_ldi hpc dr off)
    fun _ => resultOnly_of_load hpc ..

/-- Settles O14: the effect is one store, at the checked address. -/
theorem stStoresPcRelative : Obligations.StStoresPcRelative := by
  refine ⟨fun sr off s hpc => ?_, fun sr off => decodeOfEncode (.st sr off) true rfl⟩
  exact exec_completes_or_outOfRange Instr.noConfusion hpc (effectOf_st hpc sr off)
    fun _ => storesWord_of_store hpc ..

/-- Settles O15: the check is the pointer's, and the effect is one store at the word it holds. -/
theorem stiStoresThroughPointer : Obligations.StiStoresThroughPointer := by
  refine ⟨fun sr off s hpc => ?_, fun sr off => decodeOfEncode (.sti sr off) true rfl⟩
  exact exec_completes_or_outOfRange Instr.noConfusion hpc (effectOf_sti hpc sr off)
    fun _ => storesWord_of_store hpc ..

/-- Settles O16: the base is read from the state before the fetch, so DR may be BaseR. -/
theorem ldrLoadsBaseOffset : Obligations.LdrLoadsBaseOffset := by
  refine ⟨fun dr base off s hpc => ?_,
    fun dr base off => decodeOfEncode (.ldr dr base off) true rfl⟩
  exact exec_completes_or_outOfRange Instr.noConfusion hpc (effectOf_ldr s dr base off)
    fun _ => resultWithFlags_of_result hpc ..

/-- Settles O17: the base and the stored word are both read from the state before the fetch, so SR
may be BaseR. -/
theorem strStoresBaseOffset : Obligations.StrStoresBaseOffset := by
  refine ⟨fun sr base off s hpc => ?_,
    fun sr base off => decodeOfEncode (.str sr base off) true rfl⟩
  exact exec_completes_or_outOfRange Instr.noConfusion hpc (effectOf_str s sr base off)
    fun _ => storesWord_of_store hpc ..

/-- Settles O18: the effect is a result with condition codes, the checked address itself. -/
theorem leaWritesAddressAndFlags : Obligations.LeaWritesAddressAndFlags := by
  refine ⟨fun dr off s hpc => ?_, fun dr off => decodeOfEncode (.lea dr off) true rfl⟩
  exact exec_completes_or_outOfRange Instr.noConfusion hpc (effectOf_lea hpc dr off)
    fun _ => resultWithFlags_of_result hpc ..

end Sys2Proof.Machine
end

section
/-! PROOF. TRAP (spec/44_trap.md). A service has one of two effects, one character taken from In or
characters appended to Out. What every completed TRAP leaves is said once for both. -/

namespace Sys2Proof.Machine

/-! ## The services' effects -/

/-- A service that completes is x20's with a character taken, or x21's or x22's with characters
appended (R94). -/
theorem trapEffect_cases {vect : BitVec 8} {s : State} {e : Effect}
    (h : trapEffect vect s = .ok e) :
    (vect = 0x20 ∧ ∃ c, e = .input c) ∨
      ((vect = 0x21 ∨ vect = 0x22) ∧ ∃ cs tc, e = .output cs tc) := by
  unfold trapEffect at h
  split at h
  next h20 =>
    split at h
    · cases h
    · cases h; exact .inl ⟨h20, _, rfl⟩
  split at h
  next h21 => cases h; exact .inr ⟨.inl h21, _, _, rfl⟩
  split at h
  next h22 =>
    obtain ⟨cs, -, rfl⟩ := exists_of_exceptMap_eq_ok h
    exact .inr ⟨.inr h22, _, _, rfl⟩
  cases h

/-- x20 with a character at the cursor takes it (R95). -/
theorem trapEffect_input {s : State} {c : CharCode} (h : s.input[s.cursor]? = some c) :
    trapEffect 0x20 s = .ok (.input c) := by
  simp only [trapEffect, if_true, h]

/-- x20 with the cursor past the end (R95). -/
theorem trapEffect_input_exhausted {s : State} (h : s.input.length ≤ s.cursor) :
    trapEffect 0x20 s = .error .inputExhausted := by
  simp only [trapEffect, if_true, List.getElem?_eq_none h]

/-- x22 appends what the scan from R0 up to the top of memory answers (R97). -/
theorem trapEffect_string (s : State) :
    trapEffect 0x22 s =
      (scanString s.mem (0x10000 - (s.reg .r0).toNat) (s.reg .r0).toNat).map
        fun cs => .output cs (40 + 27 * cs.length) := rfl

/-- Every other vector is unsupported (R98). -/
theorem trapEffect_unsupported {vect : BitVec 8} (h20 : vect ≠ 0x20) (h21 : vect ≠ 0x21)
    (h22 : vect ≠ 0x22) (s : State) : trapEffect vect s = .error (.unsupportedTrap vect) := by
  rw [trapEffect, if_neg h20, if_neg h21, if_neg h22]

/-! ## Completion and faults -/

/-- A service's effect saves the pc it sees in R7 and leaves the pc, the status register and memory
(R93, R104). -/
theorem Effect.apply_of_trapEffect {vect : BitVec 8} {s : State} {e : Effect}
    (h : trapEffect vect s = .ok e) :
    (e.apply s).reg .r7 = s.pc ∧ (e.apply s).pc = s.pc ∧ (e.apply s).psr = s.psr ∧
      (e.apply s).mem = s.mem := by
  rcases trapEffect_cases h with ⟨-, c, rfl⟩ | ⟨-, cs, tc, rfl⟩
  · exact ⟨by simp [Effect.apply], rfl, rfl, rfl⟩
  · exact ⟨by simp [Effect.apply], rfl, rfl, rfl⟩

/-- What every completed TRAP leaves, at the cost its service adds. -/
theorem trapCommon_of_trapEffect {vect : BitVec 8} {s : State} {e : Effect} {tc : Nat}
    (hpc : Fetchable s) (h : trapEffect vect (s.setPc (s.pc + 1#16)) = .ok e)
    (htc : (e.apply (s.setPc (s.pc + 1#16))).cost = s.cost + tc) :
    TrapCommon s ((e.apply (s.setPc (s.pc + 1#16))).addCost (Config.baseCost 0b1111)) tc := by
  obtain ⟨hlink, hnext, hpsr, hmem⟩ := Effect.apply_of_trapEffect h
  have hcost : (e.apply (s.setPc (s.pc + 1#16))).cost + Config.baseCost 0b1111 =
      s.cost + (Config.baseCost 0b1111 + tc) := by omega
  exact ⟨hlink, hpsr, hmem, ⟨(congrArg _ hnext).trans (pc_succ_toNat hpc), hcost⟩, e.apply_bp _,
    e.apply_input _, e.apply_runState _⟩

/-- A TRAP whose service appends characters completes with them at the end of Out, and writes no
other register than R7. -/
theorem exec_trap_appends {vect : BitVec 8} {s : State} {cs : List CharCode} {tc : Nat}
    (hpc : Fetchable s) (h : trapEffect vect (s.setPc (s.pc + 1#16)) = .ok (.output cs tc)) :
    ∃ t, exec (.trap vect) s = .next t ∧ TrapCommon s t tc ∧
      (∀ q, q ≠ .r7 → t.reg q = s.reg q) ∧ t.output = s.output ++ cs ∧ t.cursor = s.cursor :=
  ⟨_, exec_of_effect (i := .trap vect) Instr.noConfusion hpc h,
    trapCommon_of_trapEffect hpc h rfl, fun q hq => by simp [Effect.apply, hq], rfl, rfl⟩

/-- A TRAP whose service faults takes that fault from the state before the fetch (R100). -/
theorem exec_trap_faults {vect : BitVec 8} {s : State} {k : FaultKind} (hpc : Fetchable s)
    (h : trapEffect vect (s.setPc (s.pc + 1#16)) = .error k) :
    exec (.trap vect) s = .next (s.takeFault k) :=
  exec_of_body_error Instr.noConfusion hpc (body_eq_error_iff_effect.mpr h)

/-! ## TRAP's words (R57, R58) -/

/-- Only the vector x25 spells the halt word. -/
theorem wellFormed_trap {vect : BitVec 8} (h : vect ≠ 0x25) :
    (Instr.trap vect).wellFormed = true := by
  refine wellFormed_of_encode_ne fun hhalt => h ?_
  rw [encode_trap] at hhalt
  obtain ⟨-, -, hvect⟩ := trap_layout_iff.mp hhalt
  exact hvect.symm

/-- A word of TRAP's opcode with a nonzero `w[11:8]` is Illegal, and is not the halt word, whose
`w[11:8]` is zero. -/
theorem decode_trap_of_unused_ne {w : Word} (hop : opcodeField w = 0b1111#4)
    (hu : w.extractLsb' 8 4 ≠ 0) : decode w = .error (.unusedBits w) := by
  have hhalt : isHaltWord w = false := Bool.eq_false_iff.mpr fun hw =>
    hu (by rw [isHaltWord_iff.mp hw]; decide)
  rw [decode_eq_decodeUnder, decodeUnder_of_not_halt hhalt,
    decodeFields_trap true (trap_layout_iff.mpr ⟨hop, rfl, rfl⟩), beq_false_of_ne hu,
    checkUnused_differs]

/-! ## The obligations -/

/-- Settles O19: the effect is one character taken from In where the cursor finds one, and
InputExhausted where it finds none. -/
theorem trapInputReadsOneCharacter : Obligations.TrapInputReadsOneCharacter := by
  refine ⟨fun s c hpc hc => ?_, fun s hpc hend => ?_⟩
  · have heff : trapEffect 0x20 (s.setPc (s.pc + 1#16)) = .ok (.input c) := trapEffect_input hc
    refine ⟨_, exec_of_effect (i := .trap 0x20) Instr.noConfusion hpc heff,
      trapCommon_of_trapEffect hpc heff rfl, ?_, fun q h0 h7 => ?_, rfl, rfl⟩
    · simp [Effect.apply, zext16]
    · simp [Effect.apply, h0, h7]
  · exact exec_trap_faults hpc (trapEffect_input_exhausted hend)

/-- Settles O20: the effect is one character appended, the low eight bits of R0. -/
theorem trapOutputAppendsCharacter : Obligations.TrapOutputAppendsCharacter :=
  fun _ hpc => exec_trap_appends hpc rfl

/-- Settles O21: the scan answers the characters before the first zero word, and without one it runs
through all the room from R0 up to 0xFFFF and faults at 0x10000. -/
theorem trapStringAppendsUntilZero : Obligations.TrapStringAppendsUntilZero := by
  refine ⟨fun s n hpc hn hne hz => ?_, fun s hpc hne => ?_⟩
  · refine exec_trap_appends hpc ?_
    have hscan := scanString_of_zero
      (by omega : n < 0x10000 - (s.reg .r0).toNat) hne hz
    rw [trapEffect_string, State.setPc_mem, State.setPc_reg, hscan]
    simp [Except.map, charOf]
  · refine exec_trap_faults hpc ?_
    have hscan := scanString_of_nonzero (room := 0x10000 - (s.reg .r0).toNat)
      fun i hi => hne ((s.reg .r0).toNat + i) (by omega) (by omega)
    have htop : (s.reg .r0).toNat + (0x10000 - (s.reg .r0).toNat) = 0x10000 :=
      Nat.add_sub_of_le (s.reg .r0).isLt.le
    rw [trapEffect_string, State.setPc_mem, State.setPc_reg, hscan, htop]
    rfl

/-- Settles O22: the dispatcher's fault is taken from the state before the fetch. -/
theorem unsupportedTrapLeavesState : Obligations.UnsupportedTrapLeavesState :=
  fun _ _ hpc h20 h21 h22 => exec_trap_faults hpc (trapEffect_unsupported h20 h21 h22 _)

/-- Settles O23: a run that goes on after a TRAP has completed it with a service's effect. -/
theorem trapSavesReturnAddress : Obligations.TrapSavesReturnAddress := by
  refine ⟨fun s t v _ h ht => ?_, fun v hv => decodeOfEncode (.trap v) true (wellFormed_trap hv),
    fun w hop hu => decode_trap_of_unused_ne hop hu⟩
  obtain ⟨hpc, e, heff, rfl⟩ := completed_with_effect h ht
  rcases trapEffect_cases heff with ⟨hv, c, rfl⟩ | ⟨hv, cs, tc, rfl⟩
  · exact ⟨.inl hv, 28, trapCommon_of_trapEffect hpc heff rfl⟩
  · exact ⟨.inr hv, tc, trapCommon_of_trapEffect hpc heff rfl⟩

end Sys2Proof.Machine
end

section
/-! PROOF. Faults (spec/60_exceptions.md R99 to R102). A fault in a run has one of three origins: the
fetch increment, an Illegal word, or the effect of the instruction at pc. -/

namespace Sys2Proof.Machine

/-! ## The origins of a fault -/

/-- An instruction that faults in a run has taken that fault from the state before the fetch, raised
by the increment or by its effect (R100). -/
theorem exec_faulted_cases {i : Instr} {s t : State} {k : FaultKind} (h : exec i s = .next t)
    (hrun : s.runState = .running) (hk : t.runState = .faulted k) :
    t = s.takeFault k ∧ ((s.pc = 0xFFFF#16 ∧ k = .addressOutOfRange 0x10000) ∨
      (Fetchable s ∧ effectOf i (s.setPc (s.pc + 1#16)) = .error k)) := by
  rcases exec_cases h with ⟨-, rfl⟩ | ⟨-, k', rfl, hcause⟩ | ⟨-, -, u, hu, rfl⟩
  · cases hk
  · obtain rfl : k' = k := RunState.faulted.inj hk
    exact ⟨rfl, hcause.imp_right fun ⟨hpc, hb⟩ => ⟨hpc, body_eq_error_iff_effect.mp hb⟩⟩
  · have hgoes : u.runState = .running := (body_runState hu).trans hrun
    exact nomatch hgoes.symm.trans hk

/-- A step of a run that faults has taken that fault from the state before the fetch, raised by the
increment, by an Illegal word, or by the effect of the instruction at pc (R100). -/
theorem step_faulted_cases {s t : State} {k : FaultKind} (hrun : s.runState = .running)
    (h : step s = .next t) (hk : t.runState = .faulted k) :
    t = s.takeFault k ∧ ((s.pc = 0xFFFF#16 ∧ k = .addressOutOfRange 0x10000) ∨
      (decode (s.mem.read s.pc.toNat) = .error (.unusedBits (s.mem.read s.pc.toNat)) ∧
        k = .illegalInstruction (s.mem.read s.pc.toNat)) ∨
      (Fetchable s ∧ ∃ i, decode (s.mem.read s.pc.toNat) = .ok i ∧
        effectOf i (s.setPc (s.pc + 1#16)) = .error k)) := by
  obtain ⟨-, ⟨-, rfl⟩ | ⟨-, i, hd, he⟩ | ⟨-, w, hd, hw⟩⟩ := step_cases h
  · cases hk
  · obtain ⟨ht, htop | ⟨hpc, heff⟩⟩ := exec_faulted_cases he hrun hk
    · exact ⟨ht, .inl htop⟩
    · exact ⟨ht, .inr (.inr ⟨hpc, i, hd, heff⟩)⟩
  · obtain rfl := decode_error_word hd
    rw [raiseIllegal_eq] at hw
    obtain rfl := Host.Outcome.next.inj hw
    obtain rfl := RunState.faulted.inj hk
    refine ⟨rfl, ?_⟩
    split
    next htop => exact .inl ⟨htop, rfl⟩
    next => exact .inr (.inl ⟨hd, rfl⟩)

/-! ## The faults of an effect -/

/-- An effect behind an address check faults where the sum is no address, and records the sum (R38). -/
theorem outOfRange_of_map_checkAddr {β : Type} {sum : Int} {f : Word → β} {k : FaultKind}
    (h : (checkAddr sum).map f = .error k) : OutOfRange sum ∧ k = .addressOutOfRange sum :=
  checkAddr_eq_error_iff.mp (exceptMap_eq_error_iff.mp h)

/-- RTI faults by its mode, and else by a stack at the top of memory (R84). -/
theorem popEffect_error_cases {s : State} {k : FaultKind} (h : popEffect s = .error k) :
    (psrM s.psr = true ∧ k = .privilegeFault) ∨
      (psrM s.psr = false ∧ 0xFFFE ≤ (s.reg .r6).toNat ∧ k = .addressOutOfRange 0x10000) := by
  unfold popEffect at h
  split at h
  next hm => cases h; exact .inl ⟨hm, rfl⟩
  next hm =>
    split at h
    next => cases h
    next hsp => cases h; exact .inr ⟨Bool.eq_false_iff.mpr hm, by omega, rfl⟩

/-- A scan that leaves the room has met no zero word in it (R97). -/
theorem nonzero_of_scanString_error {m : Memory} {room a : Nat} {k : FaultKind}
    (h : scanString m room a = .error k) {i : Nat} (hi : i < room) : m.read (a + i) ≠ 0 := by
  intro hz
  have hex : ∃ n, m.read (a + n) = 0 := ⟨i, hz⟩
  have hscan := scanString_of_zero ((Nat.find_min' hex hz).trans_lt hi)
    (fun _ hj => Nat.find_min hex hj) (Nat.find_spec hex)
  exact nomatch h.symm.trans hscan

/-- x22's scan faults at 0x10000, and no word from R0 up to the top of memory is zero then (R97). -/
theorem stringScan_error {s : State} {k : FaultKind}
    (h : scanString s.mem (0x10000 - (s.reg .r0).toNat) (s.reg .r0).toNat = .error k) :
    k = .addressOutOfRange 0x10000 ∧
      ∀ b, (s.reg .r0).toNat ≤ b → b ≤ 0xFFFF → s.mem.read b ≠ 0 := by
  refine ⟨?_, fun b hlo hhi => ?_⟩
  · rw [scanString_error h, Nat.add_sub_of_le (s.reg .r0).isLt.le]
    rfl
  · have hne := nonzero_of_scanString_error h (i := b - (s.reg .r0).toNat) (by omega)
    rwa [Nat.add_sub_of_le hlo] at hne

/-- TRAP faults by its vector, x20 with the cursor at the end, x22 without a zero word, and x21 never
(R95 to R98). -/
theorem trapEffect_error_cases {vect : BitVec 8} {s : State} {k : FaultKind}
    (h : trapEffect vect s = .error k) :
    (vect = 0x20 ∧ k = .inputExhausted ∧ s.input.length ≤ s.cursor) ∨
      (vect = 0x22 ∧ k = .addressOutOfRange 0x10000 ∧
        ∀ b, (s.reg .r0).toNat ≤ b → b ≤ 0xFFFF → s.mem.read b ≠ 0) ∨
      (vect ≠ 0x20 ∧ vect ≠ 0x21 ∧ vect ≠ 0x22 ∧ k = .unsupportedTrap vect) := by
  unfold trapEffect at h
  split at h
  next h20 =>
    split at h
    next hend => cases h; exact .inl ⟨h20, rfl, List.getElem?_eq_none_iff.mp hend⟩
    next => cases h
  next h20 =>
    split at h
    next => cases h
    next h21 =>
      split at h
      next h22 => exact .inr (.inl ⟨h22, stringScan_error (exceptMap_eq_error_iff.mp h)⟩)
      next h22 => cases h; exact .inr (.inr ⟨h20, h21, h22, rfl⟩)

/-! ## The obligations -/

/-- Settles O29: whatever its origin, the fault is taken from the state before the fetch. -/
theorem faultsArePrecise : Obligations.FaultsArePrecise := by
  intro s t k hrun h hk
  obtain ⟨ht, -⟩ := step_faulted_cases hrun h hk
  exact ht

/-- Settles O30: each test of the loop in turn decides the step, RTI's first test is its mode, and
TRAP's first is its vector. -/
theorem eventsHaveOneOrder : Obligations.EventsHaveOneOrder := by
  refine ⟨fun s hrun => ?_, fun s hpc hM => ?_, fun s t k v hpc h hrun hk => ?_⟩
  · obtain ⟨htop, -⟩ := pcDoesNotWrap
    obtain ⟨hruns, hillegal⟩ := stepRunsDecodedInstruction
    split_ifs with hb hw hpc
    · exact step_of_break hrun hb
    · exact step_of_haltWord ⟨hrun, hb⟩ hw
    · exact htop s ⟨hrun, hb⟩ hpc (by simpa [hpc] using hw)
    · have hfetch : Fetchable s := (pc_cases s).resolve_right hpc
      have hdec : decode (s.mem.read s.pc.toNat) = decodeFields true (s.mem.read s.pc.toNat) :=
        decodeUnder_of_not_halt (Bool.eq_false_iff.mpr (mt isHaltWord_iff.mp hw))
      split
      next e hd => exact hillegal s e ⟨hrun, hb⟩ hfetch (hdec.trans hd)
      next i hd => exact hruns s i ⟨hrun, hb⟩ (hdec.trans hd)
  · obtain ⟨-, -, hprivilege, -⟩ := modeBitBelongsToRti
    exact hprivilege s hpc hM
  · obtain ⟨-, ⟨htop, -⟩ | ⟨-, heff⟩⟩ := exec_faulted_cases h hrun hk
    · exact absurd htop (ne_top_of_fetchable hpc)
    · rcases trapEffect_error_cases heff with ⟨rfl, rfl, -⟩ | ⟨rfl, rfl, -⟩ | ⟨h20, -, h22, rfl⟩
      · rfl
      · rfl
      · rw [if_neg h20, if_neg h22]

/-- Settles O31: the increment and an Illegal word have one fault each, and an instruction's effect
faults by its address check, its mode, its service, or its opcode. -/
theorem faultKindsHaveTheirCauses : Obligations.FaultKindsHaveTheirCauses := by
  refine ⟨⟨rfl, fun _ => rfl, rfl, fun _ => rfl, fun _ => rfl⟩, fun s t k hrun h hk => ?_⟩
  obtain ⟨rfl, ⟨htop, rfl⟩ | ⟨hd, rfl⟩ | ⟨hpc, i, hd, heff⟩⟩ := step_faulted_cases hrun h hk
  · exact ⟨rfl, .inr (by decide), .inl ⟨htop, rfl⟩⟩
  · exact ⟨rfl, rfl, .inl hd⟩
  refine ⟨rfl, ?_⟩
  cases i with
  | br n z p off =>
    by_cases htaken : branchTaken n z p s.psr = true
    · rw [effectOf_br_of_taken hpc htaken] at heff
      obtain ⟨hout, rfl⟩ := outOfRange_of_map_checkAddr heff
      exact ⟨hout, .inr ⟨_, hd, rfl, branchTaken_iff.mp htaken⟩⟩
    · rw [effectOf_br_of_not_taken htaken] at heff
      cases heff
  | jsr _ | ld _ _ | ldi _ _ | st _ _ | sti _ _ | lea _ _ | ldr _ _ _ | str _ _ _ =>
    simp only [effectOf_jsr hpc, effectOf_ld hpc, effectOf_ldi hpc, effectOf_st hpc,
      effectOf_sti hpc, effectOf_lea hpc, effectOf_ldr, effectOf_str] at heff
    obtain ⟨hout, rfl⟩ := outOfRange_of_map_checkAddr heff
    exact ⟨hout, .inr ⟨_, hd, rfl⟩⟩
  | rti =>
    rcases popEffect_error_cases heff with ⟨hm, rfl⟩ | ⟨hm, hsp, rfl⟩
    · exact ⟨hd, hm⟩
    · exact ⟨.inr (by decide), .inr ⟨_, hd, rfl, hm, hsp⟩⟩
  | reserved low =>
    cases heff
    obtain ⟨hw, -⟩ := encodeOfDecode _ _ hd
    exact ⟨hw, .inr (Laws.OpcodeField.reserved low)⟩
  | trap vect =>
    rcases trapEffect_error_cases heff with
      ⟨rfl, rfl, hend⟩ | ⟨rfl, rfl, hne⟩ | ⟨h20, h21, h22, rfl⟩
    · exact ⟨hd, hend⟩
    · exact ⟨.inr (by decide), .inr ⟨_, hd, rfl, rfl, hne⟩⟩
    · exact ⟨hd, h20, h21, h22⟩
  | addReg _ _ _ | addImm _ _ _ | jsrr _ | andReg _ _ _ | andImm _ _ _ | not _ _ | jmp _ | halt =>
    cases heff

end Sys2Proof.Machine
end

section
/-! PROOF. Nothing reads the cost (spec/10_state.md R29, spec/70_reset_and_hazards.md R118): an
instruction reads the same effect from a state of another cost, and an effect adds to the cost without
looking at it. -/

namespace Sys2Proof.Machine

theorem State.addCost_right_comm (s : State) (c d : Nat) :
    (s.addCost c).addCost d = (s.addCost d).addCost c :=
  congrArg (fun n => { s with cost := n }) (Nat.add_right_comm s.cost c d)

/-- No operand, address or service reads the cost. -/
theorem effectOf_addCost (i : Instr) (s : State) (d : Nat) :
    effectOf i (s.addCost d) = effectOf i s := by
  cases i <;> rfl

/-- The services of TRAP add to the cost, and no other effect touches it (R93). -/
theorem Effect.apply_addCost (e : Effect) (s : State) (d : Nat) :
    e.apply (s.addCost d) = (e.apply s).addCost d := by
  cases e with
  | input c =>
    exact (((s.setReg .r7 s.pc).setCursor (s.cursor + 1)).setReg .r0 (zext16 c)).addCost_right_comm
      d 28
  | output cs tc => exact ((s.setReg .r7 s.pc).appendOutput cs).addCost_right_comm d tc
  | _ => rfl

/-- From a larger cost an instruction stops in the same way, or completes with the same effect. -/
theorem exec_addCost {i : Instr} {s t : State} (h : exec i s = .next t) (d : Nat) :
    exec i (s.addCost d) = .next (t.addCost d) := by
  have heff : effectOf i ((s.addCost d).setPc (s.pc + 1#16)) = effectOf i (s.setPc (s.pc + 1#16)) :=
    effectOf_addCost i (s.setPc (s.pc + 1#16)) d
  rcases exec_cases h with ⟨rfl, rfl⟩ | ⟨hi, k, rfl, ⟨hpc, rfl⟩ | ⟨hpc, hb⟩⟩ | ⟨hi, hpc, u, hb, rfl⟩
  · rfl
  · exact exec_of_top (s := s.addCost d) hi hpc
  · rw [body_eq_error_iff_effect, ← heff, ← body_eq_error_iff_effect] at hb
    exact exec_of_body_error (s := s.addCost d) hi hpc hb
  · rw [body_eq_effect] at hb
    obtain ⟨e, he, rfl⟩ := exists_of_exceptMap_eq_ok hb
    rw [exec_of_effect (s := s.addCost d) hi hpc (heff.trans he), State.addCost_right_comm]
    have happly := e.apply_addCost (s.setPc (s.pc + 1#16)) d
    exact congrArg (fun u : State => Host.Outcome.next (u.addCost _)) happly

/-- Settles O34: none of the loop's tests reads the cost, and neither does what it runs. -/
theorem costIsNeverRead : Obligations.CostIsNeverRead := by
  intro s t d h
  change step (s.addCost d) = .next (t.addCost d)
  obtain ⟨hrun, ⟨hbp, rfl⟩ | ⟨hbp, i, hd, he⟩ | ⟨hbp, w, hd, hw⟩⟩ := step_cases h
  · exact step_of_break (s := s.addCost d) hrun hbp
  · rw [step_of_decode (s := s.addCost d) hrun hbp hd]
    exact exec_addCost he d
  · rw [raiseIllegal_eq] at hw
    obtain rfl := Host.Outcome.next.inj hw
    rw [step_of_illegal (s := s.addCost d) hrun hbp hd]
    exact raiseIllegal_eq w (s.addCost d)

end Sys2Proof.Machine
end

section
/-! PROOF. Initialize (spec/70_reset_and_hazards.md R114), and the state at power-on (R113). -/

namespace Sys2Proof.Machine

/-! ## Initialize -/

theorem hostCall_initializeCore {s : State} {start : Nat} {words : List Nat}
    (h : s.runState ≠ .running) (hw : ∀ w ∈ words, w < 0x10000) (hs : start ≤ 0xFFFF)
    (hfits : start + words.length ≤ 0x10000) :
    hostCall (.initializeCore start words) s = .next (s.initializeCore start words, .ok) := by
  rw [hostCall_of_not_running h, hostTransaction, if_pos (allBelow_eq_true_iff.mpr hw),
    if_pos (initializeFits_eq_true_iff.mpr ⟨hs, hfits⟩)]

theorem hostCall_initializeCore_of_outside {s : State} {start : Nat} {words : List Nat}
    (h : s.runState ≠ .running) (hw : ∀ w ∈ words, w < 0x10000)
    (hout : ¬ (start ≤ 0xFFFF ∧ start + words.length ≤ 0x10000)) :
    hostCall (.initializeCore start words) s = .next (s, .addressOutOfRange) := by
  rw [hostCall_of_not_running h, hostTransaction, if_pos (allBelow_eq_true_iff.mpr hw),
    if_neg (mt initializeFits_eq_true_iff.mp hout)]

/-- A word below 65536 is loaded as it is (R114, D3). -/
theorem State.initializeCore_read_inside (s : State) {start : Nat} {words : List Nat}
    (hw : ∀ w ∈ words, w < 0x10000) {k : Nat} (hk : k < words.length) :
    ((s.initializeCore start words).mem.read (start + k)).toNat = words[k] := by
  have hin : start ≤ start + k ∧ start + k - start < (words.map (BitVec.ofNat 16)).length := by
    rw [List.length_map]; omega
  rw [State.initializeCore, Memory.read_load, dif_pos hin]
  simpa using hw _ (List.getElem_mem hk)

theorem State.initializeCore_read_outside (s : State) {start a : Nat} {words : List Nat}
    (ha : a < start ∨ start + words.length ≤ a) :
    (s.initializeCore start words).mem.read a = s.mem.read a := by
  have hout : ¬ (start ≤ a ∧ a - start < (words.map (BitVec.ofNat 16)).length) := by
    rw [List.length_map]; omega
  rw [State.initializeCore, Memory.read_load, dif_neg hout]

theorem State.initializeCore_pc_toNat (s : State) {start : Nat} (words : List Nat)
    (hs : start ≤ 0xFFFF) : (s.initializeCore start words).pc.toNat = start :=
  Nat.mod_eq_of_lt (Nat.lt_succ_of_le hs)

/-- Settles O53: where the range fits, a load writes its own addresses alone. -/
theorem initializeLoadsWords : Obligations.InitializeLoadsWords :=
  ⟨fun s _ ws hrun hw hs hfits =>
    ⟨_, hostCall_initializeCore hrun hw hs hfits, fun _ hk => s.initializeCore_read_inside hw hk,
      fun _ ha => s.initializeCore_read_outside ha, s.initializeCore_pc_toNat ws hs,
      rfl, rfl, rfl, rfl, rfl, rfl, rfl, rfl⟩,
    fun _ _ _ hrun hw hout => hostCall_initializeCore_of_outside hrun hw hout⟩

/-! ## The state at power-on -/

/-- Settles O46: memory and the breakpoint set are empty, and the cursor is at the start of In. -/
theorem resetMeetsInv : Obligations.ResetMeetsInv where
  mem_wf := ⟨List.Pairwise.nil, fun _ hc => absurd hc List.not_mem_nil⟩
  bp_wf := List.Pairwise.nil
  cursor_le := Nat.zero_le _

/-- Settles O48: R113's decided values are the ones `State.reset` is written with. -/
theorem resetHasDecidedValues : Obligations.ResetHasDecidedValues :=
  ⟨rfl, rfl, rfl, rfl, rfl, rfl⟩

end Sys2Proof.Machine
end
